-- ==== Sys2Proof/Word.lean ====
section
/-! DEFINITION. The two value widths of the codec (00_scope.md R10). -/

namespace Sys2Proof

/-- An unsigned 8-bit integer, the source's "Protocol Byte" (R10). -/
abbrev Byte := BitVec 8

/-- An unsigned 16-bit integer, the width of every register and buffer entry (R10, R20). -/
abbrev Word := BitVec 16

end Sys2Proof
end

