-- ==== Sys2Proof/Config.lean ====
section
/-! DEFINITION. The OPEN parameters of an implementation (00_scope.md R5 to R8). Which sets are legal is
`paramsValid` in Machine/Parameters.lean. -/

namespace Sys2Proof

/-- An ordered triple of Bytes: status, data1, data2 (R10). -/
structure Triplet where
  status : Byte
  data1 : Byte
  data2 : Byte
deriving DecidableEq, Repr

/-- The parameters the spec leaves OPEN: "the model takes as an argument" (R5, R6, R8). They are fixed for one
instance of the codec. -/
structure Params where
  /-- P_NOTE_STATUS (R5). -/
  noteStatus : Byte
  /-- P_CMD_START (R6). -/
  start : Triplet
  /-- P_CMD_END (R6). -/
  stop : Triplet
  /-- CAP_IN, the number of IN entries (R8). -/
  capIn : Nat
  /-- CAP_OUT, the number of OUT entries (R8). -/
  capOut : Nat
deriving DecidableEq, Repr

/-- The illustrative parameters of the spec's own vectors (95_test_vectors.md section 2.6; the capacities are R8's
"The test vectors use"). DESIGN CHOICE (log entry 1), unsafe: only `Machine.State.reset` uses them. -/
def vectorParams : Params where
  noteStatus := 0x90#8
  start := ⟨0xB0#8, 0x70#8, 0x00#8⟩
  stop := ⟨0xB0#8, 0x71#8, 0x00#8⟩
  capIn := 1024
  capOut := 3078

end Sys2Proof
end

