-- ==== Sys2Proof/Syntax.lean ====
section
/-! DEFINITION. The syntax of the codec: the command mnemonics (30_encoding.md R81) and the host's script notation
(R87, R88), both as abstract syntax. -/

namespace Sys2Proof

/-- One constructor per row of the opcode table (R81). A command word has no operand fields: the operands are the
snapshot's (R85). -/
inductive Instr where
  /-- FRAME, `prepare_frame` of an ordered payload. -/
  | frame
  /-- FRAME.U, `prepare_frame` of an unordered collection (R83). -/
  | frameU
  /-- B2T, `byte_to_triplet`. -/
  | b2t
  /-- SEND, `prepare_for_sending`. -/
  | send
  /-- REASM, `reassemble`. -/
  | reasm
  /-- TRIM, `validate_and_trim`. -/
  | trim
  /-- DECODE, `protocol_message_from_midi_messages`. -/
  | decode
  /-- DSER, `decode_serial_number`. -/
  | dser
  /-- DLED, `decode_led_state`. -/
  | dled
  /-- DMV, `get_millivolts_from_protocol_message`. -/
  | dmv
  /-- EMV, `encode_millivolts`. -/
  | emv
  /-- DMVP, `decode_millivolts`. -/
  | dmvp
  /-- CAT.SER, catalog sequence GET_SERIAL_NUMBER. -/
  | catSer
  /-- CAT.VOLT, catalog sequence GET_VOLTAGE. -/
  | catVolt
  /-- CAT.LED, catalog sequence GET_LED_STATE. -/
  | catLed
deriving DecidableEq, Repr

/-- One host access of one 16-bit word (20_memory.md R50, R53). -/
inductive Access where
  /-- `MemRead(addr, 1)`. -/
  | read (addr : Word)
  /-- `MemWrite(addr, 1, v)`. -/
  | write (addr : Word) (v : Word)
deriving DecidableEq, Repr

/-- What a WR or RD statement names (R87): a register, a buffer entry, or (as the spec's vectors T2 to T4 write it)
an address of the register space. -/
inductive RegName where
  | cmd
  | arg
  | inLen
  | status
  | outLen
  | res
  | errCtx
  /-- `IN[i]`. -/
  | inEntry (i : Nat)
  /-- `OUT[i]`. -/
  | outEntry (i : Nat)
  /-- A word address written out. -/
  | address (a : Word)
deriving DecidableEq, Repr

/-- A value of the script notation (R87): a literal or a parameter field. -/
inductive Value where
  /-- A decimal or `0x` literal. -/
  | lit (v : Word)
  /-- START0, START1 or START2. -/
  | startField (k : Fin 3)
  /-- END0, END1 or END2. -/
  | stopField (k : Fin 3)
  /-- N, the note status. -/
  | note
deriving DecidableEq, Repr

/-- An item of an LDIN list (R88). -/
inductive LoadItem where
  | value (v : Value)
  /-- `TRIPLET (a, b, c)`. -/
  | triplet (a b c : Value)
  /-- `START`, the triplet P_CMD_START. -/
  | start
  /-- `END`, the triplet P_CMD_END. -/
  | stop
deriving DecidableEq, Repr

/-- A statement of the host script notation: the basic ones (R87) and the pseudo-statements (R88). -/
inductive HostStmt where
  | wr (r : RegName) (v : Value)
  | rd (r : RegName)
  | issue (i : Instr)
  | ldin (items : List LoadItem)
  | wait
  | rdout
  | out2in
deriving DecidableEq, Repr

end Sys2Proof
end

