-- ==== Sys2Proof/Machine/State.lean ====
section
/-! DEFINITION. The state of the codec and of the host beside it, as plain data, with the reasons a step can stop and
the state right after reset (10_state.md, 70_reset_and_hazards.md R230). -/

namespace Sys2Proof.Machine

/-- The entries of a buffer that do not read 0, as (entry index, word) pairs with strictly rising indices. An unlisted
entry reads 0x0000, its reset value (R20). -/
abbrev Memory := List (Nat × Word)

/-- The fields of STATUS (R25). Bits 15:8 are reserved and read 0, so they are not stored. -/
structure Status where
  /-- Bit 0: 1 from accept until commit. -/
  busy : Bool
  /-- Bit 1: 1 once an accepted command has committed. -/
  done : Bool
  /-- Bit 2: 1 if the last committed command ended in error. -/
  err : Bool
  /-- Bit 3, sticky: 1 if a CMD write was dropped while BUSY. -/
  drop : Bool
  /-- Bits 7:4: the error code of the last committed command, or 0. -/
  errCode : BitVec 4
deriving DecidableEq, Repr

/-- The copy of the operands taken at accept (R31). -/
structure Snapshot where
  cmd : Word
  arg : Word
  inLen : Word
  /-- `[IN[0], ..., IN[k-1]]` with `k = min(IN_LEN, CAP_IN)`. -/
  input : List Word
deriving DecidableEq, Repr

/-- The errors an operation can end with: the source's seven (60_exceptions.md R200) and the spec's five (R201). -/
inductive ErrorCode where
  /-- Framing was given zero frames. -/
  | emptyCommand
  /-- Framing was given an unordered collection. -/
  | rejectedUnorderedInput
  /-- Pre-transport stream length not divisible by 3; a dead branch (R215). -/
  | malformedTripletAlignment
  /-- A message shorter than declared, or not of the coder's expected length. -/
  | invalidProtocolMessageLength
  /-- The command byte is not the coder's expected one. -/
  | incorrectCommandByte
  /-- The element count is not a multiple of 3. -/
  | truncatedMidiMessage
  /-- An operand element is not a byte, or a payload is too long. -/
  | invalidInput
  /-- A triplet that is neither control nor note. -/
  | malformedNoteTriplet
  /-- A serial payload byte above 0x7F. -/
  | invalidSerialCharacter
  /-- An LED payload byte other than 0 or 1. -/
  | invalidLedValue
  /-- A reserved or illegal command word. -/
  | illegalOperation
  /-- IN_LEN above CAP_IN, or not 2 for DMVP. -/
  | malformedRequest
deriving DecidableEq, Repr

/-- `err(code, ctx, msg)` (R11, R203). -/
structure Failure where
  code : ErrorCode
  ctx : Word
  msg : List Byte
deriving DecidableEq, Repr

/-- `ok(out, res)` (R11). -/
structure Success where
  out : List Byte
  res : Word
deriving DecidableEq, Repr

/-- What an operation returns: exactly one of `ok` and `err` (R11). -/
abbrev Result := Except Failure Success

/-- Something the host still has to do, in program order (R57): a statement (R87, R88), the rest of one under way, or
the external reset event (R230). -/
inductive HostTask where
  | stmt (h : HostStmt)
  /-- The rest of an LDIN: write `vs` to IN from entry `i` on, then IN_LEN. -/
  | load (i : Nat) (vs : List Word)
  /-- The rest of an OUT2IN: read `n` more OUT entries from entry `i` on, then load all that was read. -/
  | copy (i n : Nat) (got : List Word)
  /-- The external event reset. -/
  | reset
deriving DecidableEq, Repr

/-- Who can move: the host or the codec (R238). -/
inductive Agent where
  | host
  | codec
deriving DecidableEq, Repr

/-- The codec has no fault: an error is a committed result (60_exceptions.md), no host access raises one (R207), and
there is no bus error (R51). So no step ever faults, and this type has no constructor. -/
inductive Fault where
deriving DecidableEq, Repr

/-- Why the model gives no next state. -/
inductive Refusal where
  /-- An arm of `exec` without a meaning (none is left). Safe: nothing is claimed of it. -/
  | notModelled (mnemonic : String)
  /-- Raised by `step` when the parameter set breaks R7 or R8: "A model must refuse a parameter set that breaks the
  constraint". Safe. -/
  | badParameters
  /-- Raised by a meaning when no snapshot is pending: there is no operation to compute (R33). `step` never calls a
  meaning so. Safe. -/
  | noCommandPending
deriving DecidableEq, Repr

/-- Everything the machine holds. `params` is constant; `script`, `reads` and `turns` are the model's own, outside the
codec (log entries 1, 3 and 4); the rest is R20's register table and R35's PENDING. -/
structure State where
  params : Params
  cmd : Word
  arg : Word
  inLen : Word
  inBuf : Memory
  status : Status
  outLen : Word
  outBuf : Memory
  res : Word
  errCtx : Word
  pending : Option Snapshot
  /-- What the host will still do. -/
  script : List HostTask
  /-- What the host's MemReads returned, newest first. -/
  reads : List Word
  /-- Who moves at the next steps; when used up, a pending command commits first. -/
  turns : List Agent
deriving DecidableEq, Repr

/-- STATUS = 0x0000 (R230). -/
def Status.zero : Status := ⟨false, false, false, false, 0#4⟩

/-- An instance with parameters `p` right after reset: every register and entry 0x0000, PENDING none (R230). -/
def State.powerOn (p : Params) : State where
  params := p
  cmd := 0#16
  arg := 0#16
  inLen := 0#16
  inBuf := []
  status := Status.zero
  outLen := 0#16
  outBuf := []
  res := 0#16
  errCtx := 0#16
  pending := none
  script := []
  reads := []
  turns := []

/-- The machine right after reset (R230), for the parameters of the spec's vectors (log entry 1). -/
def State.reset : State := State.powerOn vectorParams

end Sys2Proof.Machine
end

