-- ==== Sys2Proof/Machine/Flags.lean ====
section
/-! DEFINITION. Every computation of STATUS: the error codes (60_exceptions.md R200, R201), the packed word (10_state.md
R25), and what accept, drop and commit write (R30, R32, R33). -/

namespace Sys2Proof.Machine

/-- The ERR_CODE of an error (R200, R201). -/
def ErrorCode.code : ErrorCode → BitVec 4
  | .emptyCommand => 1#4
  | .rejectedUnorderedInput => 2#4
  | .malformedTripletAlignment => 3#4
  | .invalidProtocolMessageLength => 4#4
  | .incorrectCommandByte => 5#4
  | .truncatedMidiMessage => 6#4
  | .invalidInput => 7#4
  | .malformedNoteTriplet => 8#4
  | .invalidSerialCharacter => 9#4
  | .invalidLedValue => 10#4
  | .illegalOperation => 11#4
  | .malformedRequest => 12#4

/-- STATUS as a read returns it: BUSY 0, DONE 1, ERR 2, DROP 3, ERR_CODE 7:4, and 0 in 15:8 (R25). -/
def statusWord (f : Status) : Word :=
  0#8 ++ f.errCode ++ BitVec.ofBool f.drop ++ BitVec.ofBool f.err ++ BitVec.ofBool f.done ++ BitVec.ofBool f.busy

/-- What an accept makes of STATUS (R30). -/
def statusOnAccept (_f : Status) : Status := ⟨true, false, false, false, 0#4⟩

/-- What a dropped CMD write makes of STATUS (R32). -/
def statusOnDrop (f : Status) : Status := { f with drop := true }

/-- What the commit of a success makes of STATUS; DROP is unchanged (R33). -/
def statusOnOk (f : Status) : Status := ⟨false, true, false, f.drop, 0#4⟩

/-- What the commit of an error makes of STATUS; DROP is unchanged (R33). -/
def statusOnErr (f : Status) (code : ErrorCode) : Status := ⟨false, true, true, f.drop, code.code⟩

end Sys2Proof.Machine
end

