-- ==== Sys2Proof/Machine/Ops.lean ====
section
/-! DEFINITION. The named operations over the buffers and the registers: reading and writing a buffer, the snapshot,
accept, drop, commit with the report of an error as its one shared operation, and the reset event (10_state.md R30 to
R33, 60_exceptions.md R205, R206, 70_reset_and_hazards.md R230). -/

namespace Sys2Proof.Machine

/-- Entry `i` of a buffer; an unlisted entry reads 0x0000 (R20). -/
def Memory.read : Memory → Nat → Word
  | [], _ => 0#16
  | (k, w) :: m, i => if k = i then w else Memory.read m i

/-- `v` at entry `i` before the entries `m`: an entry is listed only if it does not read 0. -/
def Memory.cell (i : Nat) (v : Word) (m : Memory) : Memory := if v = 0#16 then m else (i, v) :: m

/-- Write `v` to entry `i`, keeping the indices rising and no zero listed. -/
def Memory.write : Memory → Nat → Word → Memory
  | [], i, v => Memory.cell i v []
  | (k, w) :: m, i, v =>
    if i < k then Memory.cell i v ((k, w) :: m)
    else if i = k then Memory.cell i v m
    else (k, w) :: Memory.write m i v

/-- The buffer whose entries from `i` on are `ws` and whose other entries are 0. -/
def Memory.ofList (i : Nat) : List Word → Memory
  | [] => []
  | w :: ws => Memory.cell i w (Memory.ofList (i + 1) ws)

/-- The canonical form from entry `lo` on: indices strictly rising, no zero listed. -/
def Memory.wfFrom (lo : Nat) : Memory → Bool
  | [] => true
  | (k, w) :: m => decide (lo ≤ k) && decide (w ≠ 0#16) && Memory.wfFrom (k + 1) m

/-- The canonical form of a buffer: equal contents are equal lists. -/
def Memory.wf (m : Memory) : Bool := Memory.wfFrom 0 m

/-- `zext_16(v)` (00_scope.md R10). -/
def zext16 (b : Byte) : Word := b.setWidth 16

/-- The byte list of a result as the OUT entries it is written to: `OUT[i] <- zext_16(out[i])`, and 0 in every other
entry (R33). -/
def outEntries (out : List Byte) : Memory := Memory.ofList 0 (out.map zext16)

/-- A length as a 16-bit register value (R27, R203). -/
def lenWord (n : Nat) : Word := BitVec.ofNat 16 n

/-- The snapshot that a write of `v` to CMD takes (R31). -/
def takeSnapshot (s : State) (v : Word) : Snapshot where
  cmd := v
  arg := s.arg
  inLen := s.inLen
  input := (List.range (min s.inLen.toNat s.params.capIn)).map (fun i => s.inBuf.read i)

/-- Accept: a write of `v` to CMD while BUSY = 0, whatever `v` is. OUT_LEN, OUT, RES and ERR_CTX stay (R30). -/
def accept (s : State) (v : Word) : State :=
  { s with cmd := v, pending := some (takeSnapshot s v), status := statusOnAccept s.status }

/-- Drop: a write to CMD while BUSY = 1 leaves only DROP behind (R32). -/
def dropWrite (s : State) : State := { s with status := statusOnDrop s.status }

/-- Commit of `ok(out, res)` (R33). -/
def commitOk (s : State) (r : Success) : State :=
  { s with
    outLen := lenWord r.out.length
    outBuf := outEntries r.out
    res := r.res
    errCtx := 0#16
    status := statusOnOk s.status
    pending := none }

/-- Reporting an error, the codec's only form of exception: commit of `err(code, ctx, msg)` (R33, 60_exceptions.md R205).
There is no return from it: the next accept clears it from STATUS (R206). -/
def reportError (s : State) (f : Failure) : State :=
  { s with
    outLen := lenWord f.msg.length
    outBuf := outEntries f.msg
    res := 0#16
    errCtx := f.ctx
    status := statusOnErr s.status f.code
    pending := none }

/-- The commit step's writes (R33). -/
def commit (s : State) (r : Result) : State :=
  match r with
  | .ok v => commitOk s v
  | .error f => reportError s f

/-- Compute an operation from the pending snapshot and the parameters alone (R34) and commit its result (R33). -/
def runPending (s : State) (op : Params → Snapshot → Result) : Host.Outcome State Fault Refusal :=
  match s.pending with
  | some q => .next (commit s (op s.params q))
  | none => .refused .noCommandPending

/-- The commit of an illegal command word: `err(IllegalOperation, w, [])` (30_encoding.md R84, 60_exceptions.md R204). -/
def commitIllegal (s : State) (q : Snapshot) : State :=
  reportError s ⟨.illegalOperation, q.cmd, []⟩

/-- The reset event: every register and entry 0x0000 and PENDING none (70_reset_and_hazards.md R230, R231). The parameters
are the instance's and the host's own side is outside the codec, so both stay (log entry 11). -/
def resetCodec (s : State) : State :=
  { State.powerOn s.params with script := s.script, reads := s.reads, turns := s.turns }

end Sys2Proof.Machine
end

