-- ==== Sys2Proof/Machine/Parameters.lean ====
section
/-! DEFINITION. The fixed constants (00_scope.md R9), the triplet helpers that the constraint on the parameters is
written with (40_frame_encoder.md R100, R101, 41_frame_decoder.md R130), and the constraint itself (R7, R8). -/

namespace Sys2Proof.Machine

/-- CMD_GET_SERIAL_NUMBER (R9). -/
def cmdGetSerialNumber : Byte := 8#8

/-- CMD_GET_LED_STATE (R9). -/
def cmdGetLedState : Byte := 15#8

/-- CMD_GET_VOLTAGE (R9). -/
def cmdGetVoltage : Byte := 18#8

/-- LEN_SERIAL (R9). -/
def lenSerial : Nat := 10

/-- LEN_LED (R9). -/
def lenLed : Nat := 3

/-- LEN_VOLTAGE (R9). -/
def lenVoltage : Nat := 4

/-- MAX_PAYLOAD (R9). -/
def maxPayload : Nat := 254

/-- `(b >> 4) & 0xF` (R100). -/
def highNibble (b : Byte) : Byte := (b >>> 4) &&& 0xF#8

/-- `b & 0xF` (R100). -/
def lowNibble (b : Byte) : Byte := b &&& 0xF#8

/-- `note(b)` (R100, R72). -/
def noteOf (p : Params) (b : Byte) : Triplet := ⟨p.noteStatus, highNibble b, lowNibble b⟩

/-- The three fields of a triplet in order (R75). -/
def Triplet.fields (t : Triplet) : List Byte := [t.status, t.data1, t.data2]

/-- `note_flat(b)` (R100). -/
def noteFlat (p : Params) (b : Byte) : List Byte := Triplet.fields (noteOf p b)

/-- `flat(ts)` (R101). -/
def flat (ts : List Triplet) : List Byte := ts.flatMap Triplet.fields

/-- `group3(xs)`; used only where `len(xs) mod 3 = 0` (R101). -/
def group3 : List Byte → List Triplet
  | a :: b :: c :: rest => ⟨a, b, c⟩ :: group3 rest
  | _ => []

/-- `is_control(t)`: whole-triplet equality with P_CMD_START or P_CMD_END (R130). -/
def isControl (p : Params) (t : Triplet) : Bool := decide (t = p.start) || decide (t = p.stop)

/-- `is_note(t)` (R130). -/
def isNote (p : Params) (t : Triplet) : Bool :=
  decide (t.status = p.noteStatus) && decide (t.data1 ≤ 0xF#8) && decide (t.data2 ≤ 0xF#8)

/-- The out-of-band constraint: neither control triplet is `(P_NOTE_STATUS, h, l)` with h and l in 0..15 (R7). -/
def outOfBand (p : Params) : Bool := !isNote p p.start && !isNote p p.stop

/-- `771 <= CAP_IN <= 12288` and `3*CAP_IN + 6 <= CAP_OUT <= 49152` (R8). -/
def capacitiesOk (p : Params) : Bool :=
  decide (771 ≤ p.capIn) && decide (p.capIn ≤ 12288) &&
  decide (3 * p.capIn + 6 ≤ p.capOut) && decide (p.capOut ≤ 49152)

/-- The parameter sets the model admits (R7, R8). -/
def paramsValid (p : Params) : Bool := outOfBand p && capacitiesOk p

end Sys2Proof.Machine
end

