-- ==== Sys2Proof/Machine/Operands.lean ====
section
/-! DEFINITION. Every form in which a command takes its operands: raising an error, the IN list with its length check
(60_exceptions.md R204), a list of bytes (10_state.md R24), the byte in ARG, and a two-byte millivolt value. -/

namespace Sys2Proof.Machine

/-- `raise E(ctx, msg)` if the condition holds (00_scope.md R10). -/
def raiseIf (c : Bool) (code : ErrorCode) (ctx : Word) (msg : List Byte) : Except Failure Unit :=
  if c then .error ⟨code, ctx, msg⟩ else .ok ()

/-- `return ok(out, res)` (R10). -/
def succeed (out : List Byte) (res : Word) : Result := .ok ⟨out, res⟩

/-- The low 8 bits of an element that was checked to be a byte. -/
def lowByte (w : Word) : Byte := w.setWidth 8

/-- `for i in ..: if xs[i] > 0xFF: raise InvalidInput(i)`, counting from `i`; then the elements as bytes (R24). -/
def bytesFrom (i : Nat) : List Word → Except Failure (List Byte)
  | [] => .ok []
  | w :: ws => do
    raiseIf (decide (0xFF#16 < w)) .invalidInput (lenWord i) []
    let bs ← bytesFrom (i + 1) ws
    .ok (lowByte w :: bs)

/-- The elements of an operand list as bytes, or InvalidInput with the index of the first that is not one (R24). -/
def bytesOf (xs : List Word) : Except Failure (List Byte) := bytesFrom 0 xs

/-- The scalar operand as a byte, or InvalidInput with its value (40_frame_encoder.md R103). -/
def byteOfArg (b : Word) : Except Failure Byte := do
  raiseIf (decide (0xFF#16 < b)) .invalidInput b []
  .ok (lowByte b)

/-- A command that reads IN: MalformedRequest if IN_LEN > CAP_IN, before the operation's own rule (R204). -/
def withInput (p : Params) (q : Snapshot) (op : List Word → Result) : Result := do
  raiseIf (decide (p.capIn < q.inLen.toNat)) .malformedRequest q.inLen []
  op q.input

/-- DMVP's further check: MalformedRequest if IN_LEN is not 2 (R204). -/
def withTwoInputs (p : Params) (q : Snapshot) (op : List Word → Result) : Result :=
  withInput p q fun xs => do
    raiseIf (decide (q.inLen ≠ 2#16)) .malformedRequest q.inLen []
    op xs

/-- `(high << 8) | low` (30_encoding.md R77). -/
def joinBytes (high low : Byte) : Word := (zext16 high <<< 8) ||| zext16 low

/-- `(mv >> 8) & 0xFF` (42_field_codec.md R164). -/
def highByte (mv : Word) : Byte := lowByte ((mv >>> 8) &&& 0xFF#16)

end Sys2Proof.Machine
end

