-- ==== Sys2Proof/Machine/FrameEncoder.lean ====
section
/-! DEFINITION. The frame encoder FE: FRAME, FRAME.U, B2T and SEND (40_frame_encoder.md R100 to R105). -/

namespace Sys2Proof.Machine

/-- `[len(p) + 1] ++ p` (30_encoding.md R71). -/
def frameOf (bs : List Byte) : List Byte := BitVec.ofNat 8 (bs.length + 1) :: bs

/-- `prepare_frame`, the pseudocode of R102. -/
def prepareFrame (unordered : Bool) (payload : List Word) : Result := do
  raiseIf unordered .rejectedUnorderedInput 0#16 []
  raiseIf (decide (maxPayload < payload.length)) .invalidInput (lenWord payload.length) []
  let bs ← bytesOf payload
  succeed (frameOf bs) 0#16

/-- `byte_to_triplet`, the pseudocode of R103. -/
def byteToTriplet (p : Params) (arg : Word) : Result := do
  let b ← byteOfArg arg
  succeed (noteFlat p b) 0#16

/-- The "pre-transport stream" of a byte list (R104). -/
def preTransport (p : Params) (bs : List Byte) : List Byte := bs.flatMap (noteFlat p)

/-- The transport sequence around a pre-transport stream, flat (R104, 30_encoding.md R74). -/
def wrapStream (p : Params) (stream : List Byte) : List Byte :=
  flat (p.start :: group3 stream ++ [p.stop])

/-- `prepare_for_sending`, the pseudocode of R104; its third check can never fire (60_exceptions.md R215). -/
def prepareForSending (p : Params) (frames : Word) (xs : List Word) : Result := do
  raiseIf (decide (frames = 0#16)) .emptyCommand 0#16 []
  let bs ← bytesOf xs
  let stream := preTransport p bs
  raiseIf (decide (stream.length % 3 ≠ 0)) .malformedTripletAlignment (lenWord stream.length) []
  succeed (wrapStream p stream) 0#16

/-- FRAME (R102). -/
def execFrame (s : State) : Host.Outcome State Fault Refusal :=
  runPending s fun p q => withInput p q (prepareFrame false)

/-- FRAME.U (R102, 30_encoding.md R83). -/
def execFrameU (s : State) : Host.Outcome State Fault Refusal :=
  runPending s fun p q => withInput p q (prepareFrame true)

/-- B2T (R103); IN and IN_LEN are not read (30_encoding.md R85). -/
def execB2t (s : State) : Host.Outcome State Fault Refusal :=
  runPending s fun p q => byteToTriplet p q.arg

/-- SEND (R104). -/
def execSend (s : State) : Host.Outcome State Fault Refusal :=
  runPending s fun p q => withInput p q (prepareForSending p q.arg)

end Sys2Proof.Machine
end

