-- ==== Sys2Proof/Machine/Catalog.lean ====
section
/-! DEFINITION. The command catalog CAT: the ROM (10_state.md R36) and CAT.SER, CAT.VOLT and CAT.LED
(40_frame_encoder.md R106 to R108). -/

namespace Sys2Proof.Machine

/-- A catalog entry: `prepare_frame([command_id])` then `prepare_for_sending` (R106). The ROM's contents are this constant
of the parameters, so it is not stored in State (log entry 10). -/
def catalog (p : Params) (commandId : Byte) : List Byte := wrapStream p (preTransport p (frameOf [commandId]))

/-- CAT.SER, SEL = 0 (R106). -/
def execCatSer (s : State) : Host.Outcome State Fault Refusal :=
  runPending s fun p _ => succeed (catalog p cmdGetSerialNumber) 0#16

/-- CAT.VOLT, SEL = 1 (R107). -/
def execCatVolt (s : State) : Host.Outcome State Fault Refusal :=
  runPending s fun p _ => succeed (catalog p cmdGetVoltage) 0#16

/-- CAT.LED, SEL = 2 (R108). -/
def execCatLed (s : State) : Host.Outcome State Fault Refusal :=
  runPending s fun p _ => succeed (catalog p cmdGetLedState) 0#16

end Sys2Proof.Machine
end

