-- ==== Sys2Proof/Machine/FieldCodec.lean ====
section
/-! DEFINITION. The typed field codec FC: DSER, DLED, DMV, EMV and DMVP (42_field_codec.md R160 to R165). -/

namespace Sys2Proof.Machine

/-- `check_msg(m, LEXP, CEXP)`: bytes, then the exact element count, then the command byte; `m[0]` is not compared
(R160). The message as bytes if every check passes. -/
def checkMsg (m : List Word) (len : Nat) (command : Byte) : Except Failure (List Byte) := do
  let bs ← bytesOf m
  raiseIf (decide (bs.length ≠ len)) .invalidProtocolMessageLength (lenWord len) bs
  raiseIf (decide (bs.getD 1 0#8 ≠ command)) .incorrectCommandByte (zext16 command) bs
  .ok bs

/-- R161's loop from message index `k` on: the first byte above 0x7F raises InvalidSerialCharacter. -/
def checkAscii (m : List Byte) (k : Nat) : List Byte → Except Failure Unit
  | [] => .ok ()
  | b :: bs => do
    raiseIf (decide (0x7F#8 < b)) .invalidSerialCharacter (lenWord k) m
    checkAscii m (k + 1) bs

/-- `decode_serial_number`, the pseudocode of R161. -/
def decodeSerialNumber (xs : List Word) : Result := do
  let m ← checkMsg xs lenSerial cmdGetSerialNumber
  checkAscii m 2 (m.drop 2)
  succeed (m.drop 2) 0#16

/-- `decode_led_state`, the pseudocode of R162. -/
def decodeLedState (xs : List Word) : Result := do
  let m ← checkMsg xs lenLed cmdGetLedState
  let v := m.getD 2 0#8
  raiseIf (decide (1#8 < v)) .invalidLedValue (zext16 v) m
  succeed [] (zext16 v)

/-- `get_millivolts_from_protocol_message`, the pseudocode of R163; no range check. -/
def getMillivolts (xs : List Word) : Result := do
  let m ← checkMsg xs lenVoltage cmdGetVoltage
  succeed [] (joinBytes (m.getD 2 0#8) (m.getD 3 0#8))

/-- `encode_millivolts`, the pseudocode of R164. -/
def encodeMillivolts (mv : Word) : Result := succeed [highByte mv, lowByte (mv &&& 0xFF#16)] 0#16

/-- `decode_millivolts`, the pseudocode of R165: high is element 0, low element 1, and IN_LEN = 2 was checked. -/
def decodeMillivolts (xs : List Word) : Result := do
  let m ← bytesOf xs
  succeed [] (joinBytes (m.getD 0 0#8) (m.getD 1 0#8))

/-- DSER (R161). -/
def execDser (s : State) : Host.Outcome State Fault Refusal :=
  runPending s fun p q => withInput p q decodeSerialNumber

/-- DLED (R162). -/
def execDled (s : State) : Host.Outcome State Fault Refusal :=
  runPending s fun p q => withInput p q decodeLedState

/-- DMV (R163). -/
def execDmv (s : State) : Host.Outcome State Fault Refusal :=
  runPending s fun p q => withInput p q getMillivolts

/-- EMV (R164); IN and IN_LEN are not read (30_encoding.md R85). -/
def execEmv (s : State) : Host.Outcome State Fault Refusal :=
  runPending s fun _ q => encodeMillivolts q.arg

/-- DMVP (R165). -/
def execDmvp (s : State) : Host.Outcome State Fault Refusal :=
  runPending s fun p q => withTwoInputs p q decodeMillivolts

end Sys2Proof.Machine
end

