-- ==== Sys2Proof/Machine/FrameDecoder.lean ====
section
/-! DEFINITION. The frame decoder FD: REASM, TRIM and DECODE (41_frame_decoder.md R130 to R133). -/

namespace Sys2Proof.Machine

/-- `(t.d1 << 4) | t.d2` (R131). -/
def recombine (t : Triplet) : Byte := (t.data1 <<< 4) ||| t.data2

/-- R131's loop over the triplets from index `j` on: control triplets are filtered out, note triplets recombined, any
other raises MalformedNoteTriplet with its index. -/
def recombineFrom (p : Params) (j : Nat) : List Triplet → Except Failure (List Byte)
  | [] => .ok []
  | t :: ts =>
    if isControl p t then recombineFrom p (j + 1) ts
    else do
      raiseIf (!isNote p t) .malformedNoteTriplet (lenWord j) []
      let bs ← recombineFrom p (j + 1) ts
      .ok (recombine t :: bs)

/-- `reasm(xs)`, the pseudocode of R131. -/
def reassemble (p : Params) (xs : List Word) : Result := do
  let es ← bytesOf xs
  raiseIf (decide (es.length % 3 ≠ 0)) .truncatedMidiMessage (lenWord es.length) []
  let bs ← recombineFrom p 0 (group3 es)
  succeed bs 0#16

/-- `trim(m)`, the pseudocode of R132. -/
def validateAndTrim (m : List Word) : Result := do
  let bs ← bytesOf m
  match bs with
  | [] => .error ⟨.invalidProtocolMessageLength, 1#16, []⟩
  | len :: _ =>
    raiseIf (decide (bs.length < len.toNat)) .invalidProtocolMessageLength (zext16 len) bs
    succeed (bs.take len.toNat) 0#16

/-- `protocol_message_from_midi_messages`: reassemble then trim, the first error winning (R133). -/
def reassembleAndTrim (p : Params) (xs : List Word) : Result := do
  let r ← reassemble p xs
  validateAndTrim (r.out.map zext16)

/-- REASM (R131). -/
def execReasm (s : State) : Host.Outcome State Fault Refusal :=
  runPending s fun p q => withInput p q (reassemble p)

/-- TRIM (R132). -/
def execTrim (s : State) : Host.Outcome State Fault Refusal :=
  runPending s fun p q => withInput p q validateAndTrim

/-- DECODE (R133). -/
def execDecode (s : State) : Host.Outcome State Fault Refusal :=
  runPending s fun p q => withInput p q (reassembleAndTrim p)

end Sys2Proof.Machine
end

