-- ==== Sys2Proof/Machine/Dispatch.lean ====
section
/-! DEFINITION. Every instruction's meaning: the operation its mnemonic selects, computed from the pending snapshot and
committed (30_encoding.md R81, 10_state.md R33). -/

namespace Sys2Proof.Machine

def exec (i : Instr) (s : State) : Host.Outcome State Fault Refusal :=
  match i with
  | .frame => Sys2Proof.Machine.execFrame s
  | .frameU => Sys2Proof.Machine.execFrameU s
  | .b2t => Sys2Proof.Machine.execB2t s
  | .send => Sys2Proof.Machine.execSend s
  | .reasm => Sys2Proof.Machine.execReasm s
  | .trim => Sys2Proof.Machine.execTrim s
  | .decode => Sys2Proof.Machine.execDecode s
  | .dser => Sys2Proof.Machine.execDser s
  | .dled => Sys2Proof.Machine.execDled s
  | .dmv => Sys2Proof.Machine.execDmv s
  | .emv => Sys2Proof.Machine.execEmv s
  | .dmvp => Sys2Proof.Machine.execDmvp s
  | .catSer => Sys2Proof.Machine.execCatSer s
  | .catVolt => Sys2Proof.Machine.execCatVolt s
  | .catLed => Sys2Proof.Machine.execCatLed s

end Sys2Proof.Machine
end

