-- ==== Sys2Proof/WellFormed.lean ====
section
/-! DEFINITION. Which syntax is well formed. A command word has no operand, so every mnemonic is; a host statement may
name only buffer entries that exist (30_encoding.md R87, 10_state.md R20). The checks of a parameter set are in
Machine/Parameters.lean. -/

namespace Sys2Proof

/-- Every mnemonic is a whole command word: there is no operand field to check (R80, R81). -/
def Instr.wellFormed : Instr → Bool
  | .frame => true
  | .frameU => true
  | .b2t => true
  | .send => true
  | .reasm => true
  | .trim => true
  | .decode => true
  | .dser => true
  | .dled => true
  | .dmv => true
  | .emv => true
  | .dmvp => true
  | .catSer => true
  | .catVolt => true
  | .catLed => true

/-- IN[i] exists for i < CAP_IN and OUT[i] for i < CAP_OUT (R20). -/
def RegName.wellFormed (p : Params) : RegName → Bool
  | .cmd => true
  | .arg => true
  | .inLen => true
  | .status => true
  | .outLen => true
  | .res => true
  | .errCtx => true
  | .inEntry i => decide (i < p.capIn)
  | .outEntry i => decide (i < p.capOut)
  | .address _ => true

/-- How many list entries an LDIN item stands for (R88). -/
def LoadItem.size : LoadItem → Nat
  | .value _ => 1
  | .triplet _ _ _ => 3
  | .start => 3
  | .stop => 3

/-- A statement names only entries that exist; `LDIN [v0, ..., v(n-1)]` writes IN[0] to IN[n-1] (R88). -/
def HostStmt.wellFormed (p : Params) : HostStmt → Bool
  | .wr r _ => r.wellFormed p
  | .rd r => r.wellFormed p
  | .issue i => i.wellFormed
  | .ldin items => decide ((items.map LoadItem.size).sum ≤ p.capIn)
  | .wait => true
  | .rdout => true
  | .out2in => true

end Sys2Proof
end

