-- ==== Sys2Proof/Decode.lean ====
section
/-! DEFINITION. The command word: its fields (30_encoding.md R80), the decoder (R81 to R84, R89), total on every word
and rejecting by name, and the encoder. -/

namespace Sys2Proof

/-- OP, bits 3:0 (R80). -/
def opField (w : Word) : BitVec 4 := w.extractLsb' 0 4

/-- SEL, bits 5:4 (R80). -/
def selField (w : Word) : BitVec 2 := w.extractLsb' 4 2

/-- UNORD, bit 6 (R80). -/
def unordField (w : Word) : BitVec 1 := w.extractLsb' 6 1

/-- The reserved bits 15:7 (R80). -/
def reservedField (w : Word) : BitVec 9 := w.extractLsb' 7 9

/-- Why a command word is illegal: the five clauses of R84, in its order. -/
inductive IllegalWord where
  /-- `w[15:7] != 0`. -/
  | reservedBits
  /-- `w[3:0]` is in 0xC..0xF. -/
  | reservedOp
  /-- `w[6] = 1` and `w[3:0] != 0x0`. -/
  | unordWithoutFrame
  /-- `w[5:4] != 0` and `w[3:0] != 0xB`. -/
  | selWithoutCat
  /-- `w[3:0] = 0xB` and `w[5:4] = 3`. -/
  | reservedSel
deriving DecidableEq, Repr

/-- The OP map for a word that passed the checks of the reserved, UNORD and SEL bits (R81, R82, R83). -/
def decodeOp (op : BitVec 4) (sel : BitVec 2) (unord : BitVec 1) : Except IllegalWord Instr :=
  match op.toNat with
  | 0x0 => if unord = 1#1 then .ok .frameU else .ok .frame
  | 0x1 => .ok .b2t
  | 0x2 => .ok .send
  | 0x3 => .ok .reasm
  | 0x4 => .ok .trim
  | 0x5 => .ok .decode
  | 0x6 => .ok .dser
  | 0x7 => .ok .dled
  | 0x8 => .ok .dmv
  | 0x9 => .ok .emv
  | 0xA => .ok .dmvp
  | 0xB =>
    match sel.toNat with
    | 0 => .ok .catSer
    | 1 => .ok .catVolt
    | 2 => .ok .catLed
    | _ => .error .reservedSel
  | _ => .error .reservedOp

/-- The instruction of a command word, or the clause of R84 that makes it illegal (R80 to R84). -/
def decodeWord (w : Word) : Except IllegalWord Instr :=
  if reservedField w ≠ 0#9 then .error .reservedBits
  else if unordField w = 1#1 ∧ opField w ≠ 0x0#4 then .error .unordWithoutFrame
  else if selField w ≠ 0#2 ∧ opField w ≠ 0xB#4 then .error .selWithoutCat
  else decodeOp (opField w) (selField w) (unordField w)

/-- A command word from its fields, the reserved bits 0 (R80). -/
def packWord (unord : BitVec 1) (sel : BitVec 2) (op : BitVec 4) : Word :=
  0#9 ++ unord ++ sel ++ op

/-- The command word of a mnemonic (R81 to R83). -/
def encode : Instr → Word
  | .frame => packWord 0#1 0#2 0x0#4
  | .frameU => packWord 1#1 0#2 0x0#4
  | .b2t => packWord 0#1 0#2 0x1#4
  | .send => packWord 0#1 0#2 0x2#4
  | .reasm => packWord 0#1 0#2 0x3#4
  | .trim => packWord 0#1 0#2 0x4#4
  | .decode => packWord 0#1 0#2 0x5#4
  | .dser => packWord 0#1 0#2 0x6#4
  | .dled => packWord 0#1 0#2 0x7#4
  | .dmv => packWord 0#1 0#2 0x8#4
  | .emv => packWord 0#1 0#2 0x9#4
  | .dmvp => packWord 0#1 0#2 0xA#4
  | .catSer => packWord 0#1 0#2 0xB#4
  | .catVolt => packWord 0#1 1#2 0xB#4
  | .catLed => packWord 0#1 2#2 0xB#4

/-- What the decoder reads from the opcode table's number `w` of `nbits` bits. A command is one 16-bit word (R80), so a
number with a bit above bit 15 is no command word. -/
def decodeTableWord (_nbits w : Nat) : Option Instr :=
  if w < 65536 then
    match decodeWord (BitVec.ofNat 16 w) with
    | .ok i => some i
    | .error _ => none
  else none

end Sys2Proof
end

