-- ==== Sys2Proof/Machine/Bus.lean ====
section
/-! DEFINITION. The register space as the host reaches it: the address map, MemRead and MemWrite (20_memory.md R50 to
R54). -/

namespace Sys2Proof.Machine

/-- The word address of a register or buffer entry (R50). For an entry that does not exist, the address the sum wraps
to (log entry 12). -/
def regAddr : RegName → Word
  | .cmd => 0x0000#16
  | .arg => 0x0001#16
  | .inLen => 0x0002#16
  | .status => 0x0003#16
  | .outLen => 0x0004#16
  | .res => 0x0005#16
  | .errCtx => 0x0006#16
  | .inEntry i => BitVec.ofNat 16 (0x1000 + i)
  | .outEntry i => BitVec.ofNat 16 (0x4000 + i)
  | .address a => a

/-- What the map of R50 has at a word address, for the capacities of `p`; `none` is a reserved address. -/
def regAt (p : Params) (a : Word) : Option RegName :=
  let n := a.toNat
  if n = 0x0000 then some .cmd
  else if n = 0x0001 then some .arg
  else if n = 0x0002 then some .inLen
  else if n = 0x0003 then some .status
  else if n = 0x0004 then some .outLen
  else if n = 0x0005 then some .res
  else if n = 0x0006 then some .errCtx
  else if 0x1000 ≤ n ∧ n < 0x4000 ∧ n - 0x1000 < p.capIn then some (.inEntry (n - 0x1000))
  else if 0x4000 ≤ n ∧ n - 0x4000 < p.capOut then some (.outEntry (n - 0x4000))
  else none

/-- MemRead: the register's value, or 0x0000 at a reserved address (R51); no side effect (R54). -/
def memRead (s : State) (a : Word) : Word :=
  match regAt s.params a with
  | some .cmd => s.cmd
  | some .arg => s.arg
  | some .inLen => s.inLen
  | some .status => statusWord s.status
  | some .outLen => s.outLen
  | some .res => s.res
  | some .errCtx => s.errCtx
  | some (.inEntry i) => s.inBuf.read i
  | some (.outEntry i) => s.outBuf.read i
  | some (.address _) => 0#16
  | none => 0#16

/-- A write of `v` to CMD is accepted while BUSY = 0 and dropped while BUSY = 1 (10_state.md R21, R30, R32). -/
def writeCmd (s : State) (v : Word) : State := if s.status.busy then dropWrite s else accept s v

/-- MemWrite: CMD starts an operation, ARG, IN_LEN and IN store the value, and a write to a read-only register or to a
reserved address is ignored (R51, R52, R54). -/
def memWrite (s : State) (a v : Word) : State :=
  match regAt s.params a with
  | some .cmd => writeCmd s v
  | some .arg => { s with arg := v }
  | some .inLen => { s with inLen := v }
  | some .status => s
  | some .outLen => s
  | some .res => s
  | some .errCtx => s
  | some (.inEntry i) => { s with inBuf := s.inBuf.write i v }
  | some (.outEntry _) => s
  | some (.address _) => s
  | none => s

end Sys2Proof.Machine
end

