-- ==== Sys2Proof/Machine/HostAgent.lean ====
section
/-! DEFINITION. The host agent: what each statement of its script does to the register space, one access a step, in
program order (30_encoding.md R87, R88, 20_memory.md R57), and the reset event (70_reset_and_hazards.md R230). -/

namespace Sys2Proof.Machine

/-- Field `k` of a triplet: status, data1, data2 (00_scope.md R10). -/
def tripletField (t : Triplet) (k : Fin 3) : Word :=
  match k.val with
  | 0 => zext16 t.status
  | 1 => zext16 t.data1
  | _ => zext16 t.data2

/-- The word a value of the notation stands for (R87). -/
def valueWord (p : Params) : Value → Word
  | .lit v => v
  | .startField k => tripletField p.start k
  | .stopField k => tripletField p.stop k
  | .note => zext16 p.noteStatus

/-- The words an LDIN item stands for (R88). -/
def itemWords (p : Params) : LoadItem → List Word
  | .value v => [valueWord p v]
  | .triplet a b c => [valueWord p a, valueWord p b, valueWord p c]
  | .start => (Triplet.fields p.start).map zext16
  | .stop => (Triplet.fields p.stop).map zext16

/-- The words of an LDIN list (R88). -/
def loadWords (p : Params) (items : List LoadItem) : List Word := items.flatMap (itemWords p)

/-- The first access of "write `vs` to IN from entry `i` on, then IN_LEN": after the last value IN_LEN gets the count (R88). -/
def loadAccess (i : Nat) : List Word → Access
  | [] => .write (regAddr .inLen) (BitVec.ofNat 16 i)
  | v :: _ => .write (regAddr (.inEntry i)) v

/-- What is left of it after that access. -/
def loadRest (i : Nat) : List Word → List HostTask
  | [] => []
  | _ :: vs => [.load (i + 1) vs]

/-- The access a task makes next (R87, R88); the reset event is no access. -/
def taskAccess (p : Params) : HostTask → Option Access
  | .stmt (.wr r v) => some (.write (regAddr r) (valueWord p v))
  | .stmt (.rd r) => some (.read (regAddr r))
  | .stmt (.issue i) => some (.write (regAddr .cmd) (encode i))
  | .stmt (.ldin items) => some (loadAccess 0 (loadWords p items))
  | .stmt .wait => some (.read (regAddr .status))
  | .stmt .rdout => some (.read (regAddr .outLen))
  | .stmt .out2in => some (.read (regAddr .outLen))
  | .load i vs => some (loadAccess i vs)
  | .copy _ 0 got => some (loadAccess 0 got)
  | .copy i (_ + 1) _ => some (.read (regAddr (.outEntry i)))
  | .reset => none

/-- What is left of a task after its access, given the word a read returned: WAIT repeats until BUSY reads 0, RDOUT reads
OUT[0] to OUT[OUT_LEN-1], OUT2IN reads them and loads what it read (R88). -/
def taskRest (p : Params) (v : Word) : HostTask → List HostTask
  | .stmt (.wr _ _) => []
  | .stmt (.rd _) => []
  | .stmt (.issue _) => []
  | .stmt (.ldin items) => loadRest 0 (loadWords p items)
  | .stmt .wait => if v.getLsbD 0 then [.stmt .wait] else []
  | .stmt .rdout => (List.range v.toNat).map (fun i => .stmt (.rd (.outEntry i)))
  | .stmt .out2in => [.copy 0 v.toNat []]
  | .load i vs => loadRest i vs
  | .copy _ 0 got => loadRest 0 got
  | .copy i (n + 1) got => [.copy (i + 1) n (got ++ [v])]
  | .reset => []

/-- A MemRead hands its word to the host and changes nothing else (R54). -/
def hostRead (s : State) (a : Word) : State := { s with reads := memRead s a :: s.reads }

/-- The word the next access of a task returns to the host; a write returns none, and 0 stands for it. -/
def accessValue (s : State) : Option Access → Word
  | some (.read a) => memRead s a
  | some (.write _ _) => 0#16
  | none => 0#16

/-- The effect of one access on the codec, or of the reset event. -/
def doAccess (s : State) : Option Access → State
  | some (.read a) => hostRead s a
  | some (.write a v) => memWrite s a v
  | none => resetCodec s

/-- Replace what the host will still do. -/
def setScript (s : State) (ts : List HostTask) : State := { s with script := ts }

/-- One step of the host: the next access of its script, or nothing if the script is empty. -/
def hostStep (s : State) : State :=
  match s.script with
  | [] => s
  | t :: ts =>
    let a := taskAccess s.params t
    setScript (doAccess s a) (taskRest s.params (accessValue s a) t ++ ts)

end Sys2Proof.Machine
end

