-- ==== Sys2Proof/Machine/Codec.lean ====
section
/-! DEFINITION. The codec agent's step and whose turn it is (10_state.md R33, 70_reset_and_hazards.md R238). -/

namespace Sys2Proof.Machine

/-- The codec's step: commit the pending command, by its decoded meaning or, for an illegal word, IllegalOperation (R33,
60_exceptions.md R204). With nothing pending the codec is idle (R214). -/
def codecStep (s : State) : Host.Outcome State Fault Refusal :=
  match s.pending with
  | none => .next s
  | some q =>
    match decodeWord q.cmd with
    | .ok i => exec i s
    | .error _ => .next (commitIllegal s q)

/-- Who moves next: as `turns` says, and once it is used up a pending command commits before the host goes on, so that a
pending command always commits (R238, weak fairness; log entry 3). -/
def nextAgent (s : State) : Option Agent :=
  match s.turns with
  | a :: _ => some a
  | [] => if s.pending.isSome then some .codec else if s.script.isEmpty then none else some .host

/-- The turn is used up. -/
def takeTurn (s : State) : State := { s with turns := s.turns.tail }

/-- The step of the agent whose turn it is; with no agent to move, nothing changes (log entry 5). -/
def agentStep (s : State) : Host.Outcome State Fault Refusal :=
  match nextAgent s with
  | some .codec => codecStep (takeTurn s)
  | some .host => .next (hostStep (takeTurn s))
  | none => .next s

end Sys2Proof.Machine
end

