-- ==== Sys2Proof/Machine/Step.lean ====
section
/-! DEFINITION. One step of the machine, and how the host of this package places a command. -/

namespace Sys2Proof.Machine

/-- One atomic step: one host access, one commit or one reset (20_memory.md R57). A parameter set that breaks R7 or R8 is
refused, as R7 demands. -/
def step (s : State) : Host.Outcome State Fault Refusal :=
  if paramsValid s.params then agentStep s else .refused .badParameters

/-- `s` with the command word `w` accepted (R30) and the codec to move next, so that the very next step commits it. A
command is one 16-bit word (30_encoding.md R80), whatever `nbits` says (log entry 4). -/
def State.withFetchWord (s : State) (_nbits w : Nat) : State :=
  { accept s (BitVec.ofNat 16 w) with turns := [] }

end Sys2Proof.Machine
end

