-- ==== Sys2Proof/Safety.lean ====
section
/-! DEFINITION. What counts as a right result and a right state, in the terms the claims use: the two ways a command can
end (10_state.md R33), what it must leave alone, the classes of operands, and the invariant of every state (R26, R27,
R35). Nothing here is used by the machine. -/

namespace Sys2Proof.Machine

/-- A byte list as buffer elements, one byte an element (20_memory.md R55). -/
def asElements (bs : List Byte) : List Word := bs.map (fun b => b.setWidth 16)

/-- OUT_LEN and OUT hold exactly this byte list: entry `i` holds `bs[i]`, every entry from OUT_LEN on reads 0 (R27). -/
def OutHolds (t : State) (bs : List Byte) : Prop :=
  t.outLen.toNat = bs.length ∧ ∀ i, t.outBuf.read i = (bs.getD i 0#8).setWidth 16

/-- The OUT entries a host reads back as the result (30_encoding.md R88, RDOUT). -/
def outWords (t : State) : List Word := (List.range t.outLen.toNat).map (fun i => t.outBuf.read i)

/-- What no commit changes: CMD, ARG, IN_LEN, every entry of IN, the parameters, and the host's side (R33,
60_exceptions.md R205). -/
structure KeepsOperands (s t : State) : Prop where
  params : t.params = s.params
  cmd : t.cmd = s.cmd
  arg : t.arg = s.arg
  inLen : t.inLen = s.inLen
  input : ∀ i, t.inBuf.read i = s.inBuf.read i
  script : t.script = s.script
  reads : t.reads = s.reads
  turns : t.turns = s.turns

/-- From `s` the pending command committed `ok(out, res)`, and `t` differs in nothing else (R33). -/
structure Succeeds (s t : State) (out : List Byte) (res : Word) : Prop where
  out : OutHolds t out
  res : t.res = res
  errCtx : t.errCtx = 0#16
  status : t.status = ⟨false, true, false, s.status.drop, 0#4⟩
  pending : t.pending = none
  rest : KeepsOperands s t

/-- From `s` the pending command committed `err(code, ctx, msg)`, and `t` differs in nothing else (R33, R205). -/
structure Fails (s t : State) (code : BitVec 4) (ctx : Word) (msg : List Byte) : Prop where
  out : OutHolds t msg
  res : t.res = 0#16
  errCtx : t.errCtx = ctx
  status : t.status = ⟨false, true, true, s.status.drop, code⟩
  pending : t.pending = none
  rest : KeepsOperands s t

/-- `i` at `s` answers a next state, with a success. -/
def CommitsOk (i : Instr) (s : State) (out : List Byte) (res : Word) : Prop :=
  ∃ t, exec i s = .next t ∧ Succeeds s t out res

/-- `i` at `s` answers a next state, with an error. -/
def CommitsErr (i : Instr) (s : State) (code : BitVec 4) (ctx : Word) (msg : List Byte) : Prop :=
  ∃ t, exec i s = .next t ∧ Fails s t code ctx msg

/-- The two states hold the same result: OUT_LEN, OUT, RES, ERR_CTX, ERR and ERR_CODE (70_reset_and_hazards.md R234). -/
structure SameResult (t u : State) : Prop where
  outLen : t.outLen = u.outLen
  out : ∀ i, t.outBuf.read i = u.outBuf.read i
  res : t.res = u.res
  errCtx : t.errCtx = u.errCtx
  err : t.status.err = u.status.err
  errCode : t.status.errCode = u.status.errCode

/-- A snapshot as R31 takes it: its list has min(IN_LEN, CAP_IN) entries. -/
def SnapshotOk (p : Params) (q : Snapshot) : Prop := q.input.length = min q.inLen.toNat p.capIn

/-- The snapshot `q` is pending, and passes R204's check IN_LEN <= CAP_IN, so that `len(s.in) = s.in_len`. -/
structure Ready (s : State) (q : Snapshot) : Prop where
  params : paramsValid s.params = true
  pending : s.pending = some q
  fits : q.inLen.toNat ≤ s.params.capIn
  length : q.input.length = q.inLen.toNat

/-- `k` is the index of the first element above 0xFF (10_state.md R24). -/
def FirstNonByte (xs : List Word) (k : Nat) : Prop :=
  255 < (xs.getD k 0#16).toNat ∧ ∀ j, j < k → (xs.getD j 0#16).toNat ≤ 255

/-- A control triplet (30_encoding.md R73, 41_frame_decoder.md R130). -/
def ControlTriplet (p : Params) (t : Triplet) : Prop := t = p.start ∨ t = p.stop

/-- A note triplet (R130). -/
def NoteTriplet (p : Params) (t : Triplet) : Prop :=
  t.status = p.noteStatus ∧ t.data1.toNat ≤ 15 ∧ t.data2.toNat ≤ 15

/-- Every triplet is a control triplet or a note triplet. -/
def LegalTriplets (p : Params) (ts : List Triplet) : Prop := ∀ t ∈ ts, ControlTriplet p t ∨ NoteTriplet p t

/-- The triplet at index `j` is the first that is neither (R131). -/
def FirstBadTriplet (p : Params) (ts : List Triplet) (j : Nat) : Prop :=
  ∃ before t after, ts = before ++ t :: after ∧ before.length = j ∧ LegalTriplets p before ∧
    ¬ ControlTriplet p t ∧ ¬ NoteTriplet p t

/-- The bytes the note triplets of a list carry, in order: high nibble from data1, low nibble from data2 (R131). -/
def carriedBytes (p : Params) (ts : List Triplet) : List Byte :=
  (ts.filter (fun t => decide (t ≠ p.start ∧ t ≠ p.stop))).map
    (fun t => BitVec.ofNat 8 (16 * t.data1.toNat + t.data2.toNat))

/-- The note triplet of a byte, by arithmetic: `(P_NOTE_STATUS, b div 16, b mod 16)` (R72). -/
def noteTripletOf (p : Params) (b : Byte) : List Byte :=
  [p.noteStatus, BitVec.ofNat 8 (b.toNat / 16), BitVec.ofNat 8 (b.toNat % 16)]

/-- The flat transport sequence of a byte list: START, one note triplet a byte, END (30_encoding.md R74, R75). -/
def transportOf (p : Params) (bs : List Byte) : List Byte :=
  [p.start.status, p.start.data1, p.start.data2] ++ bs.flatMap (noteTripletOf p) ++
    [p.stop.status, p.stop.data1, p.stop.data2]

/-- R160 for one coder: bytes first, then the exact length, then the command byte; `m[0]` is compared with nothing. -/
def ChecksMessage (i : Instr) (len : Nat) (command : Byte) : Prop :=
  ∀ s q, Ready s q →
    (∀ k, FirstNonByte q.input k → CommitsErr i s 7#4 (BitVec.ofNat 16 k) []) ∧
    (∀ m : List Byte, q.input = asElements m →
      (m.length ≠ len → CommitsErr i s 4#4 (BitVec.ofNat 16 len) m) ∧
      (m.length = len → m.getD 1 0#8 ≠ command → CommitsErr i s 5#4 (command.setWidth 16) m))

/-- The STATUS states of R26, with DROP 0 after reset; a code is 1 to 12. -/
def StatusLegal (f : Status) : Prop :=
  (f.busy = false ∧ f.done = false ∧ f.err = false ∧ f.errCode = 0#4 ∧ f.drop = false) ∨
  (f.busy = true ∧ f.done = false ∧ f.err = false ∧ f.errCode = 0#4) ∨
  (f.busy = false ∧ f.done = true ∧ f.err = false ∧ f.errCode = 0#4) ∨
  (f.busy = false ∧ f.done = true ∧ f.err = true ∧ 1 ≤ f.errCode.toNat ∧ f.errCode.toNat ≤ 12)

/-- What holds of every reachable state. -/
structure StateInv (s : State) : Prop where
  /-- R7 and R8 hold of the instance. -/
  params : paramsValid s.params = true
  /-- IN is in canonical form and lists no entry from CAP_IN on (R20). -/
  inWf : s.inBuf.wf = true
  inBound : ∀ i, s.params.capIn ≤ i → s.inBuf.read i = 0#16
  /-- OUT is in canonical form, its length fits (20_memory.md R56), every entry from OUT_LEN on reads 0 and every entry
  holds a byte (R27). -/
  outWf : s.outBuf.wf = true
  outFits : s.outLen.toNat ≤ s.params.capOut
  outZero : ∀ i, s.outLen.toNat ≤ i → s.outBuf.read i = 0#16
  outByte : ∀ i, (s.outBuf.read i).toNat ≤ 255
  /-- R26. -/
  status : StatusLegal s.status
  /-- BUSY is 1 exactly when PENDING is not none (R35). -/
  busy : s.status.busy = s.pending.isSome
  /-- The snapshot is one R31 takes, and CMD holds the last accepted command word (R21). -/
  snapshot : ∀ q, s.pending = some q → q.cmd = s.cmd ∧ SnapshotOk s.params q
  /-- After a success ERR_CTX is 0 (R29). -/
  okCtx : s.status.done = true → s.status.err = false → s.errCtx = 0#16
  /-- After an error RES is 0 (R28). -/
  errRes : s.status.err = true → s.res = 0#16
  /-- Before the first command after reset there is no result (70_reset_and_hazards.md R234). -/
  fresh : s.status.busy = false → s.status.done = false →
    s.cmd = 0#16 ∧ s.outLen = 0#16 ∧ s.res = 0#16 ∧ s.errCtx = 0#16

/-- The commands that read IN (30_encoding.md R85, 60_exceptions.md R204). -/
def readsInput : Instr → Bool
  | .frame => true
  | .frameU => true
  | .b2t => false
  | .send => true
  | .reasm => true
  | .trim => true
  | .decode => true
  | .dser => true
  | .dled => true
  | .dmv => true
  | .emv => false
  | .dmvp => true
  | .catSer => false
  | .catVolt => false
  | .catLed => false

/-- The commands that read ARG (R85). -/
def readsArg : Instr → Bool
  | .frame => false
  | .frameU => false
  | .b2t => true
  | .send => true
  | .reasm => false
  | .trim => false
  | .decode => false
  | .dser => false
  | .dled => false
  | .dmv => false
  | .emv => true
  | .dmvp => false
  | .catSer => false
  | .catVolt => false
  | .catLed => false

/-- The largest output of a successful command (20_memory.md R56). -/
def largestOutput (p : Params) : Instr → Nat
  | .frame => 255
  | .frameU => 255
  | .b2t => 3
  | .send => 3 * (p.capIn + 2)
  | .reasm => p.capIn
  | .trim => p.capIn
  | .decode => p.capIn
  | .dser => 8
  | .dled => 0
  | .dmv => 0
  | .emv => 2
  | .dmvp => 0
  | .catSer => 12
  | .catVolt => 12
  | .catLed => 12

/-- `k` steps in a row, up to the first refusal. -/
def stepMany : Nat → State → Host.Outcome State Fault Refusal
  | 0, s => .next s
  | k + 1, s =>
    match step s with
    | .next t => stepMany k t
    | .fault r => .fault r
    | .refused r => .refused r

end Sys2Proof.Machine
end

