-- ==== Sys2Proof/Certificates/Slice0/Obligations.lean ====
section
/-! DEFINITION. The statements for the provers. Each docstring names the rule of spec/ it formalises. In all of them the
parameters are those the state holds, so each claim is for every parameter set that R7 and R8 admit. -/

open Sys2Proof Sys2Proof.Machine

/-! ## Encoding -/

/-- R80 to R84, R89: a word decodes to an instruction exactly when it is that instruction's command word. -/
def Obligations.DecodeAndEncodeAgree : Prop :=
  ∀ (w : Word) (i : Instr), decodeWord w = .ok i ↔ encode i = w

/-- R81, "Full command words": each word of the table decodes to its mnemonic. -/
def Obligations.CommandWordTable : Prop :=
  ∀ e ∈ [(0x0000#16, Instr.frame), (0x0040#16, .frameU), (0x0001#16, .b2t), (0x0002#16, .send), (0x0003#16, .reasm),
      (0x0004#16, .trim), (0x0005#16, .decode), (0x0006#16, .dser), (0x0007#16, .dled), (0x0008#16, .dmv),
      (0x0009#16, .emv), (0x000A#16, .dmvp), (0x000B#16, .catSer), (0x001B#16, .catVolt), (0x002B#16, .catLed)],
    decodeWord e.1 = .ok e.2

/-- R84: the words without an instruction are exactly those that break one of its five clauses, written on the number; an
idle codec accepts such a word as any other; and the codec's turn commits `err(IllegalOperation, w, [])`, whatever IN_LEN
is. When the codec's turn comes is the model's choice (log entry 3), here a hypothesis. -/
def Obligations.IllegalWordsCommitIllegalOperation : Prop :=
  ∀ w : Word,
    ((∀ i, decodeWord w ≠ .ok i) ↔
      (w.toNat / 128 ≠ 0 ∨ 12 ≤ w.toNat % 16 ∨ (w.toNat / 64 % 2 = 1 ∧ w.toNat % 16 ≠ 0) ∨
        (w.toNat / 16 % 4 ≠ 0 ∧ w.toNat % 16 ≠ 11) ∨ (w.toNat % 16 = 11 ∧ w.toNat / 16 % 4 = 3))) ∧
    ((∀ i, decodeWord w ≠ .ok i) →
      (∀ s : State, s.status.busy = false → memWrite s 0x0000#16 w = accept s w) ∧
      (∀ (s : State) (q : Snapshot), paramsValid s.params = true → s.pending = some q → q.cmd = w →
        nextAgent s = some .codec → ∃ t, step s = .next t ∧ Fails (takeTurn s) t 11#4 w []))

/-! ## The operations: FE and CAT -/

/-- R102 for FRAME: too long a payload, the first non-byte element, and otherwise the frame `[len + 1] ++ p`. -/
def Obligations.FrameFollowsPrepareFrame : Prop :=
  decodeWord 0x0000#16 = .ok .frame ∧
  ∀ (s : State) (q : Snapshot), Ready s q →
    (254 < q.input.length → CommitsErr .frame s 7#4 (BitVec.ofNat 16 q.input.length) []) ∧
    (∀ k, q.input.length ≤ 254 → FirstNonByte q.input k → CommitsErr .frame s 7#4 (BitVec.ofNat 16 k) []) ∧
    (∀ bs : List Byte, q.input = asElements bs → bs.length ≤ 254 →
      CommitsOk .frame s (BitVec.ofNat 8 (bs.length + 1) :: bs) 0#16)

/-- R83 and R102 for FRAME.U: whatever the payload, RejectedUnorderedInput. -/
def Obligations.FrameUAlwaysRejects : Prop :=
  decodeWord 0x0040#16 = .ok .frameU ∧
  ∀ (s : State) (q : Snapshot), Ready s q → CommitsErr .frameU s 2#4 0#16 []

/-- R103: the note triplet of the byte in ARG, or InvalidInput with ARG; IN and IN_LEN do not matter. -/
def Obligations.B2tSplitsTheByte : Prop :=
  decodeWord 0x0001#16 = .ok .b2t ∧
  ∀ (s : State) (q : Snapshot), s.pending = some q →
    (255 < q.arg.toNat → CommitsErr .b2t s 7#4 q.arg []) ∧
    (∀ b : Byte, q.arg = b.setWidth 16 → CommitsOk .b2t s (noteTripletOf s.params b) 0#16)

/-- R104: no frame at all, the first non-byte element, and otherwise START, the note triplets, END. -/
def Obligations.SendBuildsTheTransportSequence : Prop :=
  decodeWord 0x0002#16 = .ok .send ∧
  ∀ (s : State) (q : Snapshot), Ready s q →
    (q.arg = 0#16 → CommitsErr .send s 1#4 0#16 []) ∧
    (q.arg ≠ 0#16 →
      (∀ k, FirstNonByte q.input k → CommitsErr .send s 7#4 (BitVec.ofNat 16 k) []) ∧
      (∀ bs : List Byte, q.input = asElements bs →
        (transportOf s.params bs).length = 3 * (bs.length + 2) ∧ CommitsOk .send s (transportOf s.params bs) 0#16))

/-- R106: CATALOG[0], written out, whatever the operands; it is SEND of one frame FRAME([8]). -/
def Obligations.CatSerReturnsItsSequence : Prop :=
  decodeWord 0x000B#16 = .ok .catSer ∧
  (∀ (s : State) (q : Snapshot), s.pending = some q →
    CommitsOk .catSer s [s.params.start.status, s.params.start.data1, s.params.start.data2,
      s.params.noteStatus, 0x0#8, 0x2#8, s.params.noteStatus, 0x0#8, 0x8#8,
      s.params.stop.status, s.params.stop.data1, s.params.stop.data2] 0#16) ∧
  ∀ p : Params, ∃ frame sequence : Success,
    prepareFrame false [8#16] = .ok frame ∧ prepareForSending p 1#16 (asElements frame.out) = .ok sequence ∧
    catalog p cmdGetSerialNumber = sequence.out

/-- R107: CATALOG[1], written out, whatever the operands. -/
def Obligations.CatVoltReturnsItsSequence : Prop :=
  decodeWord 0x001B#16 = .ok .catVolt ∧
  ∀ (s : State) (q : Snapshot), s.pending = some q →
    CommitsOk .catVolt s [s.params.start.status, s.params.start.data1, s.params.start.data2,
      s.params.noteStatus, 0x0#8, 0x2#8, s.params.noteStatus, 0x1#8, 0x2#8,
      s.params.stop.status, s.params.stop.data1, s.params.stop.data2] 0#16

/-- R108: CATALOG[2], written out, whatever the operands. -/
def Obligations.CatLedReturnsItsSequence : Prop :=
  decodeWord 0x002B#16 = .ok .catLed ∧
  ∀ (s : State) (q : Snapshot), s.pending = some q →
    CommitsOk .catLed s [s.params.start.status, s.params.start.data1, s.params.start.data2,
      s.params.noteStatus, 0x0#8, 0x2#8, s.params.noteStatus, 0x0#8, 0xF#8,
      s.params.stop.status, s.params.stop.data1, s.params.stop.data2] 0#16

/-! ## The operations: FD -/

/-- R131: the first non-byte element, an element count that is no multiple of 3, the first triplet that is neither control
nor note, and otherwise the bytes the note triplets carry. -/
def Obligations.ReasmRecombinesNoteTriplets : Prop :=
  decodeWord 0x0003#16 = .ok .reasm ∧
  ∀ (s : State) (q : Snapshot), Ready s q →
    (∀ k, FirstNonByte q.input k → CommitsErr .reasm s 7#4 (BitVec.ofNat 16 k) []) ∧
    (∀ es : List Byte, q.input = asElements es → es.length % 3 ≠ 0 →
      CommitsErr .reasm s 6#4 (BitVec.ofNat 16 es.length) []) ∧
    (∀ ts : List Triplet, q.input = asElements (flat ts) →
      (∀ j, FirstBadTriplet s.params ts j → CommitsErr .reasm s 8#4 (BitVec.ofNat 16 j) []) ∧
      (LegalTriplets s.params ts → CommitsOk .reasm s (carriedBytes s.params ts) 0#16))

/-- R132: the first non-byte element, an empty message, a message shorter than its byte 0 declares, and otherwise the
declared number of bytes. -/
def Obligations.TrimKeepsTheDeclaredLength : Prop :=
  decodeWord 0x0004#16 = .ok .trim ∧
  ∀ (s : State) (q : Snapshot), Ready s q →
    (∀ k, FirstNonByte q.input k → CommitsErr .trim s 7#4 (BitVec.ofNat 16 k) []) ∧
    (q.input = [] → CommitsErr .trim s 4#4 1#16 []) ∧
    (∀ (len : Byte) (bs : List Byte), q.input = asElements (len :: bs) →
      ((len :: bs).length < len.toNat → CommitsErr .trim s 4#4 (len.setWidth 16) (len :: bs)) ∧
      (len.toNat ≤ (len :: bs).length → CommitsOk .trim s ((len :: bs).take len.toNat) 0#16))

/-- R133: every error of REASM as REASM reports it, then TRIM of the reassembled stream, whose length error carries that
stream. -/
def Obligations.DecodeIsReasmThenTrim : Prop :=
  decodeWord 0x0005#16 = .ok .decode ∧
  ∀ (s : State) (q : Snapshot), Ready s q →
    (∀ k, FirstNonByte q.input k → CommitsErr .decode s 7#4 (BitVec.ofNat 16 k) []) ∧
    (∀ es : List Byte, q.input = asElements es → es.length % 3 ≠ 0 →
      CommitsErr .decode s 6#4 (BitVec.ofNat 16 es.length) []) ∧
    (∀ ts : List Triplet, q.input = asElements (flat ts) →
      (∀ j, FirstBadTriplet s.params ts j → CommitsErr .decode s 8#4 (BitVec.ofNat 16 j) []) ∧
      (LegalTriplets s.params ts →
        (carriedBytes s.params ts = [] → CommitsErr .decode s 4#4 1#16 []) ∧
        (∀ (len : Byte) (bs : List Byte), carriedBytes s.params ts = len :: bs →
          ((len :: bs).length < len.toNat → CommitsErr .decode s 4#4 (len.setWidth 16) (len :: bs)) ∧
          (len.toNat ≤ (len :: bs).length → CommitsOk .decode s ((len :: bs).take len.toNat) 0#16))))

/-! ## The operations: FC -/

/-- R160 and R161: the message checks, the first payload byte above 0x7F, and otherwise the 8 codes. -/
def Obligations.DserReturnsTheSerialCodes : Prop :=
  decodeWord 0x0006#16 = .ok .dser ∧ ChecksMessage .dser 10 8#8 ∧
  ∀ (s : State) (q : Snapshot) (m : List Byte), Ready s q → q.input = asElements m → m.length = 10 →
    m.getD 1 0#8 = 8#8 →
    (∀ k, 2 ≤ k → 127 < (m.getD k 0#8).toNat → (∀ j, 2 ≤ j → j < k → (m.getD j 0#8).toNat ≤ 127) →
      CommitsErr .dser s 9#4 (BitVec.ofNat 16 k) m) ∧
    ((∀ k, 2 ≤ k → (m.getD k 0#8).toNat ≤ 127) → CommitsOk .dser s (m.drop 2) 0#16)

/-- R160 and R162: the message checks, an LED byte above 1, and otherwise RES = the LED byte. -/
def Obligations.DledReturnsTheLedState : Prop :=
  decodeWord 0x0007#16 = .ok .dled ∧ ChecksMessage .dled 3 15#8 ∧
  ∀ (s : State) (q : Snapshot) (m0 v : Byte), Ready s q → q.input = asElements [m0, 15#8, v] →
    (1 < v.toNat → CommitsErr .dled s 10#4 (v.setWidth 16) [m0, 15#8, v]) ∧
    (v.toNat ≤ 1 → CommitsOk .dled s [] (v.setWidth 16))

/-- R160 and R163: the message checks, and otherwise RES = 256 * high + low, with no range check. -/
def Obligations.DmvReturnsMillivolts : Prop :=
  decodeWord 0x0008#16 = .ok .dmv ∧ ChecksMessage .dmv 4 18#8 ∧
  ∀ (s : State) (q : Snapshot) (m0 high low : Byte), Ready s q → q.input = asElements [m0, 18#8, high, low] →
    CommitsOk .dmv s [] (BitVec.ofNat 16 (256 * high.toNat + low.toNat))

/-- R164: OUT = [mv div 256, mv mod 256] for every mv; IN and IN_LEN do not matter. -/
def Obligations.EmvSplitsMillivolts : Prop :=
  decodeWord 0x0009#16 = .ok .emv ∧
  ∀ (s : State) (q : Snapshot), s.pending = some q →
    CommitsOk .emv s [BitVec.ofNat 8 (q.arg.toNat / 256), BitVec.ofNat 8 (q.arg.toNat % 256)] 0#16

/-- R165: an IN_LEN other than 2, a non-byte high, a non-byte low, and otherwise RES = 256 * high + low. -/
def Obligations.DmvpJoinsTwoBytes : Prop :=
  decodeWord 0x000A#16 = .ok .dmvp ∧
  ∀ (s : State) (q : Snapshot), Ready s q →
    (q.inLen ≠ 2#16 → CommitsErr .dmvp s 12#4 q.inLen []) ∧
    (∀ high low : Word, q.input = [high, low] →
      (255 < high.toNat → CommitsErr .dmvp s 7#4 0#16 []) ∧
      (high.toNat ≤ 255 → 255 < low.toNat → CommitsErr .dmvp s 7#4 1#16 []) ∧
      (high.toNat ≤ 255 → low.toNat ≤ 255 →
        CommitsOk .dmvp s [] (BitVec.ofNat 16 (256 * high.toNat + low.toNat))))

/-! ## Checks and results of every command -/

/-- R204: a command that reads IN with IN_LEN > CAP_IN reports MalformedRequest before any check of its own; the others do
not look at IN_LEN. -/
def Obligations.MalformedRequestComesFirst : Prop :=
  ∀ (i : Instr) (s : State) (q : Snapshot), s.pending = some q → s.params.capIn < q.inLen.toNat →
    (readsInput i = true → CommitsErr i s 12#4 q.inLen []) ∧
    (readsInput i = false → ∀ t, exec i s = .next t → t.status.errCode ≠ 12#4)

/-- R85: what an instruction does not read has no effect on its result. -/
def Obligations.UnusedOperandsDoNotMatter : Prop :=
  ∀ (i : Instr) (s u s' u' : State) (q r : Snapshot), s.params = u.params →
    s.pending = some q → u.pending = some r →
    (readsInput i = true → q.inLen = r.inLen ∧ q.input = r.input) → (readsArg i = true → q.arg = r.arg) →
    exec i s = .next s' → exec i u = .next u' → SameResult s' u'

/-- R34: two commits of equal snapshots on instances with equal parameters produce equal results, whatever came before. -/
def Obligations.EqualSnapshotsGiveEqualResults : Prop :=
  ∀ (i : Instr) (s u : State) (q : Snapshot), s.params = u.params → s.pending = some q → u.pending = some q →
    ∃ s' u', exec i s = .next s' ∧ exec i u = .next u' ∧ SameResult s' u'

/-- R33 and R205: with a snapshot pending every command commits one whole result, a success or an error with code 1 to 12,
and changes nothing else. -/
def Obligations.EveryCommitIsOneWholeResult : Prop :=
  ∀ (i : Instr) (s : State) (q : Snapshot), paramsValid s.params = true → s.pending = some q → SnapshotOk s.params q →
    (∃ out res, CommitsOk i s out res) ∨
    (∃ code ctx msg, 1 ≤ code.toNat ∧ code.toNat ≤ 12 ∧ CommitsErr i s code ctx msg)

/-- R28 and R86: a success leaves a scalar other than 0 only for DLED, DMV and DMVP, and then no byte list. -/
def Obligations.ScalarsOnlyFromTheScalarCommands : Prop :=
  ∀ (i : Instr) (s t : State), exec i s = .next t →
    (t.res ≠ 0#16 → i = .dled ∨ i = .dmv ∨ i = .dmvp) ∧
    (t.status.err = false → i = .dled ∨ i = .dmv ∨ i = .dmvp → t.outLen = 0#16)

/-- R56: every result fits in OUT, with the table's largest output of each operation. -/
def Obligations.EveryResultFitsInOut : Prop :=
  ∀ (i : Instr) (s t : State) (q : Snapshot), paramsValid s.params = true → s.pending = some q →
    SnapshotOk s.params q → exec i s = .next t →
    t.outLen.toNat ≤ s.params.capOut ∧
    (t.status.err = false → t.outLen.toNat ≤ largestOutput s.params i) ∧
    (t.status.err = true → t.outLen.toNat ≤ s.params.capIn)

/-- R215: codes 3 and 13 to 15 are never reported, and DECODE reports InvalidInput only for an element of IN. -/
def Obligations.UnreachableErrorCodes : Prop :=
  (∀ (i : Instr) (s t : State), exec i s = .next t →
    t.status.errCode ≠ 3#4 ∧ t.status.errCode ≠ 13#4 ∧ t.status.errCode ≠ 14#4 ∧ t.status.errCode ≠ 15#4) ∧
  (∀ (s t : State) (q : Snapshot), s.pending = some q → exec .decode s = .next t → t.status.errCode = 7#4 →
    ∃ k, FirstNonByte q.input k ∧ t.errCtx = BitVec.ofNat 16 k)

/-! ## The transaction -/

/-- R30 and R31: what an accepted write to CMD writes, and that it changes nothing else. -/
def Obligations.AcceptTakesTheSnapshot : Prop :=
  ∀ (s : State) (v : Word), paramsValid s.params = true → s.status.busy = false →
    ∃ q, (memWrite s 0x0000#16 v) =
        { s with cmd := v, status := ⟨true, false, false, false, 0#4⟩, pending := some q } ∧
      q.cmd = v ∧ q.arg = s.arg ∧ q.inLen = s.inLen ∧ q.input.length = min s.inLen.toNat s.params.capIn ∧
      ∀ i, i < min s.inLen.toNat s.params.capIn →
        q.input.getD i 0#16 = memRead s (BitVec.ofNat 16 (0x1000 + i))

/-- R32: a write to CMD while BUSY = 1 leaves DROP = 1 and nothing else, and the pending command's result is the same. -/
def Obligations.DroppedWriteLeavesOnlyDrop : Prop :=
  ∀ (s : State) (v : Word), s.status.busy = true →
    memWrite s 0x0000#16 v = { s with status := ⟨true, s.status.done, s.status.err, true, s.status.errCode⟩ } ∧
    ∀ (i : Instr) (t u : State), exec i s = .next t → exec i (memWrite s 0x0000#16 v) = .next u →
      SameResult t u ∧ u.cmd = s.cmd

/-- R31 and R235: while a command is pending, no write of the host changes what it will commit. -/
def Obligations.PendingCommandIgnoresLaterWrites : Prop :=
  ∀ (s : State) (q : Snapshot) (a v : Word), s.status.busy = true → s.pending = some q →
    (memWrite s a v).pending = some q ∧
    ∀ (i : Instr), ∃ t u, exec i s = .next t ∧ exec i (memWrite s a v) = .next u ∧ SameResult t u

/-- R30 and R236: no access of the host, an accepted command included, changes OUT_LEN, OUT, RES or ERR_CTX.
The host's script is the model's own field (log entry 4). -/
def Obligations.HostAccessesKeepTheResult : Prop :=
  ∀ (s : State) (t : HostTask) (ts : List HostTask), s.script = t :: ts → t ≠ .reset →
    (hostStep s).outLen = s.outLen ∧ (∀ i, (hostStep s).outBuf.read i = s.outBuf.read i) ∧
    (hostStep s).res = s.res ∧ (hostStep s).errCtx = s.errCtx

/-- R206: an error report in STATUS is cleared by the next accepted command, and by no other access of the host. -/
def Obligations.OnlyAnAcceptClearsTheErrorReport : Prop :=
  ∀ (s : State) (a v : Word),
    (a = 0x0000#16 → s.status.busy = false →
      (memWrite s a v).status.err = false ∧ (memWrite s a v).status.errCode = 0#4) ∧
    (¬ (a = 0x0000#16 ∧ s.status.busy = false) →
      (memWrite s a v).status.err = s.status.err ∧ (memWrite s a v).status.errCode = s.status.errCode) ∧
    (hostRead s a).status = s.status

/-! ## The register space -/

/-- R50, R51 and R25: what MemRead returns at each address of the map, and 0 at every reserved address. -/
def Obligations.ReadsFollowTheRegisterMap : Prop :=
  ∀ s : State, paramsValid s.params = true →
    memRead s 0x0000#16 = s.cmd ∧ memRead s 0x0001#16 = s.arg ∧ memRead s 0x0002#16 = s.inLen ∧
    (memRead s 0x0003#16).toNat = s.status.busy.toNat + 2 * s.status.done.toNat + 4 * s.status.err.toNat +
      8 * s.status.drop.toNat + 16 * s.status.errCode.toNat ∧
    memRead s 0x0004#16 = s.outLen ∧ memRead s 0x0005#16 = s.res ∧ memRead s 0x0006#16 = s.errCtx ∧
    (∀ i, i < s.params.capIn → memRead s (BitVec.ofNat 16 (0x1000 + i)) = s.inBuf.read i) ∧
    (∀ i, i < s.params.capOut → memRead s (BitVec.ofNat 16 (0x4000 + i)) = s.outBuf.read i) ∧
    (∀ a : Word, (0x0007 ≤ a.toNat ∧ a.toNat ≤ 0x0FFF) ∨
        (0x1000 + s.params.capIn ≤ a.toNat ∧ a.toNat ≤ 0x3FFF) ∨ 0x4000 + s.params.capOut ≤ a.toNat →
      memRead s a = 0#16)

/-- R51 and R52: a write to a reserved address or to a read-only register changes nothing. -/
def Obligations.IgnoredWritesChangeNothing : Prop :=
  ∀ (s : State) (a v : Word), paramsValid s.params = true →
    (0x0003 ≤ a.toNat ∧ a.toNat ≤ 0x0FFF) ∨
      (0x1000 + s.params.capIn ≤ a.toNat ∧ a.toNat ≤ 0x3FFF) ∨ 0x4000 ≤ a.toNat →
    memWrite s a v = s

/-- R22 to R24 and R54: a write to ARG, IN_LEN or IN is read back, changes what no other address reads, and starts
nothing. -/
def Obligations.OperandWritesStoreOneWord : Prop :=
  ∀ (s : State) (a v : Word), paramsValid s.params = true → s.inBuf.wf = true →
    a = 0x0001#16 ∨ a = 0x0002#16 ∨ (0x1000 ≤ a.toNat ∧ a.toNat < 0x1000 + s.params.capIn) →
    memRead (memWrite s a v) a = v ∧
    (∀ b, b ≠ a → memRead (memWrite s a v) b = memRead s b) ∧
    (memWrite s a v).pending = s.pending ∧ (memWrite s a v).status = s.status

/-- R54: a read changes no register, a write other than to CMD changes at most the word at its address, and writing the
same value twice to any address but CMD is writing it once. -/
def Obligations.AccessSideEffects : Prop :=
  ∀ (s : State) (a v : Word), s.inBuf.wf = true →
    (∀ b, memRead (hostRead s a) b = memRead s b) ∧ (hostRead s a).pending = s.pending ∧
    (a ≠ 0x0000#16 →
      (∀ b, b ≠ a → memRead (memWrite s a v) b = memRead s b) ∧ (memWrite s a v).pending = s.pending ∧
      memWrite (memWrite s a v) a v = memWrite s a v)

/-! ## Reset -/

/-- R230 and R231: after the reset event every address reads 0, nothing is pending and the parameters (so CATALOG) are as
before, whatever was pending. That the event stands in the host's script is the model's choice (log entry 11). -/
def Obligations.ResetEventClearsEveryRegister : Prop :=
  ∀ (s : State) (ts : List HostTask), s.script = .reset :: ts →
    (∀ a, memRead (hostStep s) a = 0#16) ∧ (hostStep s).status = ⟨false, false, false, false, 0#4⟩ ∧
    (hostStep s).pending = none ∧ (hostStep s).params = s.params ∧ (hostStep s).script = ts ∧
    (hostStep s).inBuf = [] ∧ (hostStep s).outBuf = []

/-- R232 and R233: the first command after reset, with no operand written, for every legal parameter set. That
the commit is the very next step is the model's choice of turns (log entry 3). -/
def Obligations.FirstCommandAfterReset : Prop :=
  ∀ p : Params, paramsValid p = true →
    (∃ t, step (accept (State.powerOn p) 0x0000#16) = .next t ∧
      Succeeds (accept (State.powerOn p) 0x0000#16) t [1#8] 0#16) ∧
    (∃ t, step (accept (State.powerOn p) 0x0002#16) = .next t ∧
      Fails (accept (State.powerOn p) 0x0002#16) t 1#4 0#16 []) ∧
    (∃ t, step (accept (State.powerOn p) 0x0004#16) = .next t ∧
      Fails (accept (State.powerOn p) 0x0004#16) t 4#4 1#16 []) ∧
    (∃ t, step (accept (State.powerOn p) 0x0001#16) = .next t ∧
      Succeeds (accept (State.powerOn p) 0x0001#16) t [p.noteStatus, 0#8, 0#8] 0#16) ∧
    (∃ t, step (accept (State.powerOn p) 0x001B#16) = .next t ∧
      Succeeds (accept (State.powerOn p) 0x001B#16) t (transportOf p [2#8, 18#8]) 0#16)

/-! ## The whole machine -/

/-- The invariant holds right after reset, for every legal parameter set and for the set `State.reset` has
(the model's choice, log entry 1). -/
def Obligations.ResetSatisfiesTheInvariant : Prop :=
  (∀ p, paramsValid p = true → StateInv (State.powerOn p)) ∧ StateInv State.reset

/-- R20, R21, R26, R27, R35 and R56 as one invariant: every step keeps it. The canonical form of the
buffers is the model's choice (log entry 7). -/
def Obligations.EveryStepKeepsTheInvariant : Prop :=
  ∀ s t : State, StateInv s → step s = .next t → StateInv t

/-- A step runs the decoded instruction: the codec's turn with a snapshot pending whose word decodes to `i` is `exec i`,
after the turn is taken. The turns are the model's own field (log entry 3). -/
def Obligations.StepRunsTheDecodedInstruction : Prop :=
  ∀ (s : State) (q : Snapshot) (i : Instr), paramsValid s.params = true → nextAgent s = some .codec →
    s.pending = some q → decodeWord q.cmd = .ok i → step s = exec i { s with turns := s.turns.tail }

/-- R7: the check the model makes is the quantified constraint with R8's bounds, a set that breaks it is refused, and
START = END is allowed. The refusal as a step's outcome is the model's form of "must refuse" (log entry 2). -/
def Obligations.BadParametersAreRefused : Prop :=
  (∀ p : Params, paramsValid p = true ↔
    ((∀ h l : Nat, h ≤ 15 → l ≤ 15 →
        p.start ≠ ⟨p.noteStatus, BitVec.ofNat 8 h, BitVec.ofNat 8 l⟩ ∧
        p.stop ≠ ⟨p.noteStatus, BitVec.ofNat 8 h, BitVec.ofNat 8 l⟩) ∧
      771 ≤ p.capIn ∧ p.capIn ≤ 12288 ∧ 3 * p.capIn + 6 ≤ p.capOut ∧ p.capOut ≤ 49152)) ∧
  (∀ s : State, paramsValid s.params = false → step s = .refused .badParameters) ∧
  (∃ p : Params, p.start = p.stop ∧ paramsValid p = true)

/-- With legal parameters every step answers a next state: no access and no command stops the codec (R207, R84, R33). That
a step with nothing to do answers the state itself is the model's choice (log entry 5). -/
def Obligations.EveryStepAnswersANextState : Prop :=
  ∀ s : State, paramsValid s.params = true → ∃ t, step s = .next t

/-- R238: whatever the interleaving, a pending command `q` stays pending for at most as many steps as there are turns left,
and the next step ends it in one of two ways: the codec commits (BUSY 0, DONE 1) the result of `q`, or R84's for an illegal
word, or the reset event comes and discards it (R231). BUSY = 1 is R35's invariant. The bound is that of the model's list of
turns (log entry 3), and the reset event stands in the model's script (log entry 11). -/
def Obligations.PendingCommandEventuallyCommits : Prop :=
  ∀ (s : State) (q : Snapshot), paramsValid s.params = true → s.status.busy = true → s.pending = some q →
    ∃ k u t, k ≤ s.turns.length ∧ stepMany k s = .next u ∧ u.pending = some q ∧ step u = .next t ∧ t.pending = none ∧
      ((t.status.busy = false ∧ t.status.done = true ∧
          (∀ i, decodeWord q.cmd = .ok i → ∃ r, exec i s = .next r ∧ SameResult t r) ∧
          ((∀ i, decodeWord q.cmd ≠ .ok i) →
            t.status.err = true ∧ t.status.errCode = 11#4 ∧ t.errCtx = q.cmd ∧ t.res = 0#16 ∧ t.outLen = 0#16)) ∨
        ((∃ ts, u.script = .reset :: ts) ∧ t.status = ⟨false, false, false, false, 0#4⟩))

/-! ## Laws between the operations -/

/-- R130: no triplet is both control and note, by R7. -/
def Obligations.NoTripletIsControlAndNote : Prop :=
  ∀ (p : Params) (t : Triplet), paramsValid p = true → ¬ (isControl p t = true ∧ isNote p t = true)

/-- R101: grouping and flattening are inverse. -/
def Obligations.GroupAndFlatAreInverse : Prop :=
  (∀ xs : List Byte, xs.length % 3 = 0 → flat (group3 xs) = xs) ∧ (∀ ts : List Triplet, group3 (flat ts) = ts)

/-- R110: a frame that FRAME returns holds its own length first: `OUT[0] = len(p) + 1 = OUT_LEN`. -/
def Obligations.FrameLengthByteIsTheFrameLength : Prop :=
  ∀ (s t : State) (q : Snapshot), Ready s q → exec .frame s = .next t → t.status.err = false →
    (t.outBuf.read 0).toNat = q.input.length + 1 ∧ t.outLen.toNat = q.input.length + 1

/-- R105: SEND depends on the frames only through their concatenated bytes and whether there is any. -/
def Obligations.SendDependsOnlyOnTheBytes : Prop :=
  ∀ (s u s' u' : State) (q r : Snapshot), s.params = u.params → s.pending = some q → u.pending = some r →
    q.inLen = r.inLen → q.input = r.input → (q.arg = 0#16 ↔ r.arg = 0#16) →
    exec .send s = .next s' → exec .send u = .next u' → SameResult s' u'

/-- R134: where the control triplets stand, and how many there are, does not change what is reassembled. -/
def Obligations.ControlTripletsAreDroppedAnywhere : Prop :=
  ∀ (s u : State) (q r : Snapshot) (ts us : List Triplet), s.params = u.params → Ready s q → Ready u r →
    q.input = asElements (flat ts) → r.input = asElements (flat us) →
    LegalTriplets s.params ts → LegalTriplets s.params us →
    ts.filter (fun t => !isControl s.params t) = us.filter (fun t => !isControl s.params t) →
    ∃ s' u', exec .reasm s = .next s' ∧ exec .reasm u = .next u' ∧ s'.status.err = false ∧ SameResult s' u'

/-- R137: the note triplet of any byte, between START and END, reassembles to that byte. -/
def Obligations.SingleTripletRecovery : Prop :=
  ∀ (s : State) (q : Snapshot) (b : Byte), Ready s q → q.input = asElements (transportOf s.params [b]) →
    CommitsOk .reasm s [b] 0#16

/-- R135: DECODE of what SEND makes of several frames with correct length bytes returns the first frame. -/
def Obligations.MultiFrameDecodeReturnsTheFirst : Prop :=
  ∀ (s1 t1 s2 : State) (q1 q2 : Snapshot) (first : List Byte) (others : List (List Byte)),
    Ready s1 q1 → Ready s2 q2 → s2.params = s1.params →
    (∀ f ∈ first :: others, ∃ rest, f = BitVec.ofNat 8 f.length :: rest ∧ f.length ≤ 255) →
    q1.input = asElements (first :: others).flatten → q1.arg = BitVec.ofNat 16 (others.length + 1) → q1.arg ≠ 0#16 →
    exec .send s1 = .next t1 → q2.input = outWords t1 → CommitsOk .decode s2 first 0#16

/-- R136: FRAME, SEND and DECODE, each result copied to the next command's IN, give the frame back, for every payload of at
most 254 bytes. -/
def Obligations.FrameSendDecodeRoundTrip : Prop :=
  ∀ (s1 t1 s2 t2 s3 : State) (q1 q2 q3 : Snapshot) (payload : List Byte),
    Ready s1 q1 → Ready s2 q2 → Ready s3 q3 → s2.params = s1.params → s3.params = s1.params →
    q1.input = asElements payload → payload.length ≤ 254 →
    exec .frame s1 = .next t1 → q2.input = outWords t1 → q2.arg = 1#16 →
    exec .send s2 = .next t2 → q3.input = outWords t2 →
    ∃ t3, exec .decode s3 = .next t3 ∧ t3.status.err = false ∧ outWords t3 = outWords t1 ∧
      outWords t1 = asElements (BitVec.ofNat 8 (payload.length + 1) :: payload)

/-- R166: DMVP of what EMV returns is the millivolt value, and EMV of what DMVP returns is the two bytes. -/
def Obligations.MillivoltRoundTrip : Prop :=
  (∀ (s1 t1 s2 : State) (q1 q2 : Snapshot), s1.pending = some q1 → Ready s2 q2 → exec .emv s1 = .next t1 →
    q2.input = outWords t1 → CommitsOk .dmvp s2 [] q1.arg) ∧
  (∀ (s1 t1 s2 : State) (q1 q2 : Snapshot) (high low : Byte), Ready s1 q1 → q1.input = asElements [high, low] →
    exec .dmvp s1 = .next t1 → s2.pending = some q2 → q2.arg = t1.res → CommitsOk .emv s2 [high, low] 0#16)

/-! ## The host's script -/

/-- R88, LDIN: with the codec idle, LDIN of n words that fit takes n + 1 accesses, after which IN[0..n-1] hold the words,
the other entries are as before, and IN_LEN is n. Script and turns are the model's own fields (log entries 3 and 4). -/
def Obligations.LdinLoadsTheOperandList : Prop :=
  ∀ (s : State) (items : List LoadItem) (ts : List HostTask), paramsValid s.params = true → s.inBuf.wf = true →
    s.pending = none → s.turns = [] → s.script = .stmt (.ldin items) :: ts →
    (loadWords s.params items).length ≤ s.params.capIn →
    ∃ t, stepMany ((loadWords s.params items).length + 1) s = .next t ∧
      t.script = ts ∧ t.inLen.toNat = (loadWords s.params items).length ∧
      (∀ i, t.inBuf.read i = (loadWords s.params items).getD i (s.inBuf.read i)) ∧
      t = { s with inBuf := t.inBuf, inLen := t.inLen, script := ts }

/-- R88, WAIT, and R234: however many polls come before the commit, WAIT goes on until BUSY reads 0, and the script then
goes on with the result committed. Script and turns are the model's own fields (log entries 3 and 4). -/
def Obligations.WaitEndsAfterTheCommit : Prop :=
  ∀ (s : State) (ts : List HostTask) (k : Nat), StateInv s → s.pending.isSome = true →
    s.turns = List.replicate k .host → s.script = .stmt .wait :: ts →
    (∃ u, stepMany k s = .next u ∧ u.script = .stmt .wait :: ts ∧ u.pending = s.pending) ∧
    (∃ t, stepMany (k + 2) s = .next t ∧ t.script = ts ∧ t.pending = none ∧ t.status.busy = false ∧
      t.status.done = true)

/-- R88, OUT2IN, and R237: with the codec idle, OUT2IN of a result of n entries that fits in IN copies OUT[0..n-1] to IN and
n to IN_LEN in 2n + 2 accesses, hands the host OUT_LEN and the n words it read, and changes nothing else; the result stays.
Script, reads and turns are the model's own fields (log entries 3 and 4). -/
def Obligations.Out2inCopiesTheResult : Prop :=
  ∀ (s : State) (ts : List HostTask), paramsValid s.params = true → s.inBuf.wf = true → s.pending = none →
    s.turns = [] → s.script = .stmt .out2in :: ts → s.outLen.toNat ≤ s.params.capIn →
    ∃ t, stepMany (2 * s.outLen.toNat + 2) s = .next t ∧ t.script = ts ∧ t.inLen = s.outLen ∧
      (∀ i, i < s.outLen.toNat → t.inBuf.read i = s.outBuf.read i) ∧
      (∀ i, s.outLen.toNat ≤ i → t.inBuf.read i = s.inBuf.read i) ∧
      t.reads = (outWords s).reverse ++ s.outLen :: s.reads ∧ SameResult t s ∧
      t = { s with inBuf := t.inBuf, inLen := t.inLen, script := ts, reads := t.reads }
end

