-- ==== Sys2Proof/Laws/Memory.lean ====
section
/-! SUPPORT. The laws of a buffer: reading what was written, the canonical form that every operation keeps, and that two
buffers in canonical form with equal entries are equal. -/

namespace Sys2Proof.Machine

@[simp] theorem Memory.read_nil (i : Nat) : Memory.read [] i = 0#16 := rfl

theorem Memory.read_cons (k : Nat) (w : Word) (m : Memory) (i : Nat) :
    Memory.read ((k, w) :: m) i = if k = i then w else Memory.read m i := rfl

/-- Nothing is listed before the bound of the canonical form. -/
theorem Memory.read_of_lt {lo : Nat} {m : Memory} (h : Memory.wfFrom lo m = true) {i : Nat} (hi : i < lo) :
    Memory.read m i = 0#16 := by
  induction m generalizing lo with
  | nil => rfl
  | cons c m ih =>
    obtain ⟨k, w⟩ := c
    simp only [Memory.wfFrom, Bool.and_eq_true, decide_eq_true_eq] at h
    rw [Memory.read_cons, if_neg (by omega)]
    exact ih h.2 (by omega)

theorem Memory.wfFrom_mono {lo lo' : Nat} {m : Memory} (h : Memory.wfFrom lo m = true) (hl : lo' ≤ lo) :
    Memory.wfFrom lo' m = true := by
  cases m with
  | nil => rfl
  | cons c m =>
    obtain ⟨k, w⟩ := c
    simp only [Memory.wfFrom, Bool.and_eq_true, decide_eq_true_eq] at h ⊢
    exact ⟨⟨by omega, h.1.2⟩, h.2⟩

theorem Memory.read_cell {i : Nat} {m : Memory} (h : Memory.wfFrom (i + 1) m = true) (v : Word) (j : Nat) :
    Memory.read (Memory.cell i v m) j = if j = i then v else Memory.read m j := by
  unfold Memory.cell
  split
  · next hv =>
    subst hv
    split
    · next hj => rw [hj]; exact Memory.read_of_lt h (by omega)
    · rfl
  · rw [Memory.read_cons]
    simp only [eq_comm (a := i)]

theorem Memory.wfFrom_cell {lo i : Nat} {m : Memory} (hl : lo ≤ i) (h : Memory.wfFrom (i + 1) m = true) (v : Word) :
    Memory.wfFrom lo (Memory.cell i v m) = true := by
  unfold Memory.cell
  split
  · exact Memory.wfFrom_mono h (by omega)
  · next hv => simp [Memory.wfFrom, hl, hv, h]

/-- A write keeps the canonical form. -/
theorem Memory.wfFrom_write {lo : Nat} {m : Memory} (h : Memory.wfFrom lo m = true) {i : Nat} (hi : lo ≤ i) (v : Word) :
    Memory.wfFrom lo (Memory.write m i v) = true := by
  induction m generalizing lo with
  | nil => exact Memory.wfFrom_cell hi rfl v
  | cons c m ih =>
    obtain ⟨k, w⟩ := c
    have h' := h
    simp only [Memory.wfFrom, Bool.and_eq_true, decide_eq_true_eq] at h'
    simp only [Memory.write]
    split
    · exact Memory.wfFrom_cell hi (by simp only [Memory.wfFrom, Bool.and_eq_true, decide_eq_true_eq]; exact ⟨⟨by omega, h'.1.2⟩, h'.2⟩) v
    · split
      · next he => exact Memory.wfFrom_cell hi (by rw [he]; exact h'.2) v
      · simp only [Memory.wfFrom, Bool.and_eq_true, decide_eq_true_eq]
        exact ⟨h'.1, ih h'.2 (by omega)⟩

/-- A read after a write: the value at the entry written, what was there everywhere else. -/
theorem Memory.read_write_from {lo : Nat} {m : Memory} (h : Memory.wfFrom lo m = true) (i : Nat) (v : Word) (j : Nat) :
    Memory.read (Memory.write m i v) j = if j = i then v else Memory.read m j := by
  induction m generalizing lo with
  | nil => exact Memory.read_cell rfl v j
  | cons c m ih =>
    obtain ⟨k, w⟩ := c
    have h' := h
    simp only [Memory.wfFrom, Bool.and_eq_true, decide_eq_true_eq] at h'
    simp only [Memory.write]
    split
    · rw [Memory.read_cell]
      simp only [Memory.wfFrom, Bool.and_eq_true, decide_eq_true_eq]
      exact ⟨⟨by omega, h'.1.2⟩, h'.2⟩
    · split
      · next he =>
        subst he
        rw [Memory.read_cell h'.2, Memory.read_cons]
        split
        · rfl
        · next hj => rw [if_neg (fun e => hj e.symm)]
      · next hne =>
        rw [Memory.read_cons, Memory.read_cons, ih h'.2]
        split
        · next he => rw [if_neg (by omega)]
        · rfl

theorem Memory.wf_write {m : Memory} (h : m.wf = true) (i : Nat) (v : Word) : (m.write i v).wf = true :=
  Memory.wfFrom_write h (Nat.zero_le i) v

theorem Memory.read_write {m : Memory} (h : m.wf = true) (i : Nat) (v : Word) (j : Nat) :
    (m.write i v).read j = if j = i then v else m.read j := Memory.read_write_from h i v j

theorem Memory.wfFrom_ofList (ws : List Word) (i : Nat) : Memory.wfFrom i (Memory.ofList i ws) = true := by
  induction ws generalizing i with
  | nil => rfl
  | cons w ws ih => exact Memory.wfFrom_cell (Nat.le_refl i) (ih (i + 1)) w

theorem Memory.read_ofList (ws : List Word) (i j : Nat) :
    Memory.read (Memory.ofList i ws) j = if j < i then 0#16 else ws.getD (j - i) 0#16 := by
  induction ws generalizing i with
  | nil => simp [Memory.ofList]
  | cons w ws ih =>
    rw [Memory.ofList, Memory.read_cell (Memory.wfFrom_ofList ws (i + 1)), ih (i + 1)]
    rcases Nat.lt_trichotomy j i with h | h | h
    · simp [h, show ¬ j = i by omega, show j < i + 1 by omega]
    · simp [h]
    · obtain ⟨d, rfl⟩ : ∃ d, j = i + 1 + d := ⟨j - (i + 1), by omega⟩
      simp [show ¬ i + 1 + d = i by omega, show ¬ i + 1 + d < i + 1 by omega, show ¬ i + 1 + d < i by omega,
        show i + 1 + d - i = d + 1 by omega]

/-- What a result's bytes leave in OUT: entry `i` is the byte `i`, and 0 beyond the list (R27, R33). -/
theorem outEntries_read (out : List Byte) (i : Nat) : (outEntries out).read i = zext16 (out.getD i 0#8) := by
  rw [outEntries, Memory.read_ofList]
  simp only [Nat.not_lt_zero, if_false, Nat.sub_zero, List.getD_eq_getElem?_getD, List.getElem?_map]
  cases out[i]? <;> rfl

theorem outEntries_wf (out : List Byte) : (outEntries out).wf = true := Memory.wfFrom_ofList _ 0

/-- Buffers in canonical form with equal entries are the same list. -/
theorem Memory.ext_of_wfFrom {lo : Nat} {m n : Memory} (hm : Memory.wfFrom lo m = true) (hn : Memory.wfFrom lo n = true)
    (h : ∀ i, Memory.read m i = Memory.read n i) : m = n := by
  induction m generalizing lo n with
  | nil =>
    cases n with
    | nil => rfl
    | cons c n =>
      obtain ⟨k, w⟩ := c
      simp only [Memory.wfFrom, Bool.and_eq_true, decide_eq_true_eq] at hn
      have := h k
      rw [Memory.read_cons, if_pos rfl] at this
      exact absurd this.symm hn.1.2
  | cons c m ih =>
    obtain ⟨k, w⟩ := c
    simp only [Memory.wfFrom, Bool.and_eq_true, decide_eq_true_eq] at hm
    cases n with
    | nil =>
      have := h k
      rw [Memory.read_cons, if_pos rfl] at this
      exact absurd this hm.1.2
    | cons d n =>
      obtain ⟨k', w'⟩ := d
      simp only [Memory.wfFrom, Bool.and_eq_true, decide_eq_true_eq] at hn
      have hk : k = k' := by
        rcases Nat.lt_trichotomy k k' with hlt | heq | hgt
        · have := h k
          rw [Memory.read_cons, if_pos rfl, Memory.read_cons, if_neg (by omega), Memory.read_of_lt hn.2 (by omega)] at this
          exact absurd this hm.1.2
        · exact heq
        · have := h k'
          rw [Memory.read_cons, if_neg (by omega), Memory.read_of_lt hm.2 (by omega), Memory.read_cons, if_pos rfl] at this
          exact absurd this.symm hn.1.2
      subst hk
      have hw : w = w' := by simpa [Memory.read_cons] using h k
      subst hw
      congr 1
      refine ih hm.2 hn.2 fun i => ?_
      by_cases hi : i < k + 1
      · rw [Memory.read_of_lt hm.2 hi, Memory.read_of_lt hn.2 hi]
      · have := h i
        rwa [Memory.read_cons, if_neg (by omega), Memory.read_cons, if_neg (by omega)] at this

end Sys2Proof.Machine
end

