-- ==== Sys2Proof/Laws/Operands.lean ====
section
/-! SUPPORT. What each operand form can answer: raising, the byte check of a list, the length check of IN, and the loops
of the decoder and of the serial check. -/

namespace Sys2Proof.Machine

@[simp] theorem raiseIf_true (code : ErrorCode) (ctx : Word) (msg : List Byte) :
    raiseIf true code ctx msg = .error ⟨code, ctx, msg⟩ := rfl

@[simp] theorem raiseIf_false (code : ErrorCode) (ctx : Word) (msg : List Byte) :
    raiseIf false code ctx msg = .ok () := rfl

@[simp] theorem ok_bind {α β : Type} (a : α) (f : α → Except Failure β) : (Except.ok a >>= f) = f a := rfl

@[simp] theorem error_bind {α β : Type} (e : Failure) (f : α → Except Failure β) :
    ((Except.error e : Except Failure α) >>= f) = .error e := rfl

theorem zext16_toNat (b : Byte) : (zext16 b).toNat = b.toNat := by simp [zext16]; omega

theorem lowByte_zext16 (b : Byte) : lowByte (zext16 b) = b := by
  apply BitVec.eq_of_toNat_eq; simp [lowByte, zext16]

theorem asElements_eq (bs : List Byte) : asElements bs = bs.map zext16 := rfl

@[simp] theorem asElements_length (bs : List Byte) : (asElements bs).length = bs.length := by simp [asElements]

/-- The byte check passes a list of bytes through. -/
theorem bytesFrom_asElements (i : Nat) (bs : List Byte) : bytesFrom i (asElements bs) = .ok bs := by
  induction bs generalizing i with
  | nil => rfl
  | cons b bs ih =>
    have hb : decide (0xFF#16 < zext16 b) = false := by
      have := zext16_toNat b
      simp [BitVec.lt_def]; omega
    have ih' := ih (i + 1)
    rw [asElements_eq] at ih' ⊢
    simp [bytesFrom, hb, ih', lowByte_zext16]

theorem bytesOf_asElements (bs : List Byte) : bytesOf (asElements bs) = .ok bs := bytesFrom_asElements 0 bs

/-- The byte check's error: the index of the first element that is not a byte. -/
theorem bytesFrom_firstNonByte {xs : List Word} {k : Nat} (h : FirstNonByte xs k) (i : Nat) :
    bytesFrom i xs = .error ⟨.invalidInput, lenWord (i + k), []⟩ := by
  induction xs generalizing i k with
  | nil => simp [FirstNonByte] at h
  | cons w ws ih =>
    obtain ⟨hk, hj⟩ := h
    cases k with
    | zero =>
      have : decide (0xFF#16 < w) = true := by simpa [BitVec.lt_def] using hk
      simp [bytesFrom, this]
    | succ k =>
      have h0 : decide (0xFF#16 < w) = false := by
        have := hj 0 (by omega)
        simp only [List.getD_cons_zero] at this
        simp [BitVec.lt_def]; omega
      have hr : FirstNonByte ws k := ⟨by simpa using hk, fun j hlt => by simpa using hj (j + 1) (by omega)⟩
      simp [bytesFrom, h0, ih hr (i + 1), show i + 1 + k = i + (k + 1) by omega]

theorem bytesOf_firstNonByte {xs : List Word} {k : Nat} (h : FirstNonByte xs k) :
    bytesOf xs = .error ⟨.invalidInput, BitVec.ofNat 16 k, []⟩ := by
  simpa [lenWord, bytesOf] using bytesFrom_firstNonByte h 0

/-- A list of elements is a list of bytes, or has a first element that is not one. -/
theorem bytes_or_firstNonByte (xs : List Word) : (∃ bs, xs = asElements bs) ∨ ∃ k, FirstNonByte xs k := by
  induction xs with
  | nil => exact .inl ⟨[], rfl⟩
  | cons w ws ih =>
    by_cases hw : 255 < w.toNat
    · exact .inr ⟨0, by simpa using hw, fun j hj => by omega⟩
    · rcases ih with ⟨bs, hb⟩ | ⟨k, hk, hj⟩
      · refine .inl ⟨lowByte w :: bs, ?_⟩
        have : zext16 (lowByte w) = w := by
          apply BitVec.eq_of_toNat_eq; simp [zext16, lowByte]; omega
        simp [asElements_eq, this, hb]
      · refine .inr ⟨k + 1, by simpa using hk, fun j hlt => ?_⟩
        cases j with
        | zero => simpa using hw
        | succ j => simpa using hj j (by omega)

/-- The length check of IN passes a snapshot that fits. -/
theorem withInput_ready {s : State} {q : Snapshot} (h : Ready s q) (op : List Word → Result) :
    withInput s.params q op = op q.input := by
  have := h.fits
  simp [withInput, show ¬ s.params.capIn < q.inLen.toNat by omega]

theorem withInput_tooLong {p : Params} {q : Snapshot} (h : p.capIn < q.inLen.toNat) (op : List Word → Result) :
    withInput p q op = .error ⟨.malformedRequest, q.inLen, []⟩ := by
  simp [withInput, h]

theorem isControl_iff (p : Params) (t : Triplet) : isControl p t = true ↔ ControlTriplet p t := by
  simp [isControl, ControlTriplet]

theorem isNote_iff (p : Params) (t : Triplet) : isNote p t = true ↔ NoteTriplet p t := by
  simp [isNote, NoteTriplet, BitVec.le_def, and_assoc]

/-- The byte of a note triplet, by arithmetic. -/
theorem recombine_note {p : Params} {t : Triplet} (h : NoteTriplet p t) :
    recombine t = BitVec.ofNat 8 (16 * t.data1.toNat + t.data2.toNat) := by
  obtain ⟨s, d1, d2⟩ := t
  obtain ⟨-, h1, h2⟩ := h
  simp only at h1 h2
  have hd1 : d1 = (BitVec.ofNat 4 d1.toNat).setWidth 8 := by
    apply BitVec.eq_of_toNat_eq; simp; omega
  have hd2 : d2 = (BitVec.ofNat 4 d2.toNat).setWidth 8 := by
    apply BitVec.eq_of_toNat_eq; simp; omega
  simp only [recombine]
  rw [hd1, hd2]
  generalize BitVec.ofNat 4 d1.toNat = a
  generalize BitVec.ofNat 4 d2.toNat = b
  revert a b
  decide

theorem highNibble_eq (b : Byte) : highNibble b = BitVec.ofNat 8 (b.toNat / 16) := by revert b; decide

theorem lowNibble_eq (b : Byte) : lowNibble b = BitVec.ofNat 8 (b.toNat % 16) := by revert b; decide

theorem noteFlat_eq (p : Params) (b : Byte) : noteFlat p b = noteTripletOf p b := by
  simp [noteFlat, noteTripletOf, noteOf, Triplet.fields, highNibble_eq, lowNibble_eq]

theorem noteOf_note (p : Params) (b : Byte) : NoteTriplet p (noteOf p b) := by
  refine ⟨rfl, ?_, ?_⟩
  · show (highNibble b).toNat ≤ 15
    revert b; decide
  · show (lowNibble b).toNat ≤ 15
    revert b; decide

/-- The decoder's loop over legal triplets answers the bytes they carry. -/
theorem recombineFrom_legal {p : Params} {ts : List Triplet} (h : LegalTriplets p ts) (j : Nat) :
    recombineFrom p j ts = .ok (carriedBytes p ts) := by
  induction ts generalizing j with
  | nil => rfl
  | cons t ts ih =>
    have ih' := ih (fun u hu => h u (List.mem_cons_of_mem t hu)) (j + 1)
    by_cases hc : isControl p t = true
    · have hp : ¬ (t ≠ p.start ∧ t ≠ p.stop) := by
        have := (isControl_iff p t).mp hc
        simp only [ControlTriplet] at this; tauto
      simp [recombineFrom, hc, ih', carriedBytes, hp]
    · have hcp : ¬ ControlTriplet p t := fun hx => hc ((isControl_iff p t).mpr hx)
      have hn : NoteTriplet p t := (h t (List.mem_cons_self ..)).resolve_left hcp
      have hp : t ≠ p.start ∧ t ≠ p.stop := by simp only [ControlTriplet] at hcp; tauto
      simp [recombineFrom, hc, (isNote_iff p t).mpr hn, ih', carriedBytes, hp, recombine_note hn]

/-- The decoder's loop stops at the first triplet that is neither control nor note. -/
theorem recombineFrom_bad {p : Params} {ts : List Triplet} {k : Nat} (h : FirstBadTriplet p ts k) (j : Nat) :
    recombineFrom p j ts = .error ⟨.malformedNoteTriplet, lenWord (j + k), []⟩ := by
  obtain ⟨before, t, after, rfl, rfl, hl, hc, hn⟩ := h
  induction before generalizing j with
  | nil =>
    have hc' : isControl p t = false := by simpa using mt (isControl_iff p t).mp hc
    have hn' : isNote p t = false := by simpa using mt (isNote_iff p t).mp hn
    simp [recombineFrom, hc', hn']
  | cons u us ih =>
    have ih' := ih (j + 1) (fun v hv => hl v (List.mem_cons_of_mem u hv))
    have e : j + 1 + us.length = j + (u :: us).length := by simp; omega
    rw [List.cons_append, recombineFrom]
    by_cases hcu : isControl p u = true
    · rw [if_pos hcu, ih', e]
    · have hnu : isNote p u = true :=
        (isNote_iff p u).mpr ((hl u (List.mem_cons_self ..)).resolve_left (fun hx => hcu ((isControl_iff p u).mpr hx)))
      rw [if_neg hcu, ih', e]
      simp [hnu]

/-- A triplet list is legal, or has a first bad triplet. -/
theorem legal_or_bad (p : Params) (ts : List Triplet) : LegalTriplets p ts ∨ ∃ j, FirstBadTriplet p ts j := by
  induction ts with
  | nil => exact .inl (by simp [LegalTriplets])
  | cons t ts ih =>
    by_cases ht : ControlTriplet p t ∨ NoteTriplet p t
    · rcases ih with hl | ⟨j, before, u, after, rfl, rfl, hb, hc, hn⟩
      · exact .inl (by simpa [LegalTriplets] using ⟨ht, hl⟩)
      · exact .inr ⟨before.length + 1, t :: before, u, after, rfl, by simp, by simpa [LegalTriplets] using ⟨ht, hb⟩, hc, hn⟩
    · exact .inr ⟨0, [], t, ts, rfl, rfl, by simp [LegalTriplets], fun h => ht (.inl h), fun h => ht (.inr h)⟩

/-- The serial check passes ASCII bytes. -/
theorem checkAscii_ok (m : List Byte) {bs : List Byte} (h : ∀ b ∈ bs, b.toNat ≤ 127) (k : Nat) :
    checkAscii m k bs = .ok () := by
  induction bs generalizing k with
  | nil => rfl
  | cons b bs ih =>
    have hb : decide (0x7F#8 < b) = false := by
      have := h b (List.mem_cons_self ..)
      simp [BitVec.lt_def]; omega
    simp [checkAscii, hb, ih (fun c hc => h c (List.mem_cons_of_mem b hc))]

/-- The serial check's error: the message index of the first byte above 0x7F. -/
theorem checkAscii_bad (m : List Byte) {bs : List Byte} {n : Nat} (hn : 127 < (bs.getD n 0#8).toNat)
    (h : ∀ j, j < n → (bs.getD j 0#8).toNat ≤ 127) (k : Nat) :
    checkAscii m k bs = .error ⟨.invalidSerialCharacter, lenWord (k + n), m⟩ := by
  induction bs generalizing k n with
  | nil => simp at hn
  | cons b bs ih =>
    cases n with
    | zero =>
      have : decide (0x7F#8 < b) = true := by simpa [BitVec.lt_def] using hn
      simp [checkAscii, this]
    | succ n =>
      have h0 : decide (0x7F#8 < b) = false := by
        have := h 0 (by omega)
        simp only [List.getD_cons_zero] at this
        simp [BitVec.lt_def]; omega
      simp [checkAscii, h0, ih (n := n) (by simpa using hn) (fun j hj => by simpa using h (j + 1) (by omega)) (k + 1),
        show k + 1 + n = k + (n + 1) by omega]

end Sys2Proof.Machine
end

