-- ==== Sys2Proof/Laws/State.lean ====
section
/-! SUPPORT. One lemma per field per named update of State, true by rfl, so that no later proof unfolds a record
update; and the commit of each outcome. -/

namespace Sys2Proof.Machine

@[simp] theorem accept_params (s : State) (v : Word) : (accept s v).params = s.params := rfl

@[simp] theorem accept_cmd (s : State) (v : Word) : (accept s v).cmd = v := rfl

@[simp] theorem accept_arg (s : State) (v : Word) : (accept s v).arg = s.arg := rfl

@[simp] theorem accept_inLen (s : State) (v : Word) : (accept s v).inLen = s.inLen := rfl

@[simp] theorem accept_inBuf (s : State) (v : Word) : (accept s v).inBuf = s.inBuf := rfl

@[simp] theorem accept_status (s : State) (v : Word) : (accept s v).status = statusOnAccept s.status := rfl

@[simp] theorem accept_outLen (s : State) (v : Word) : (accept s v).outLen = s.outLen := rfl

@[simp] theorem accept_outBuf (s : State) (v : Word) : (accept s v).outBuf = s.outBuf := rfl

@[simp] theorem accept_res (s : State) (v : Word) : (accept s v).res = s.res := rfl

@[simp] theorem accept_errCtx (s : State) (v : Word) : (accept s v).errCtx = s.errCtx := rfl

@[simp] theorem accept_pending (s : State) (v : Word) : (accept s v).pending = some (takeSnapshot s v) := rfl

@[simp] theorem accept_script (s : State) (v : Word) : (accept s v).script = s.script := rfl

@[simp] theorem accept_reads (s : State) (v : Word) : (accept s v).reads = s.reads := rfl

@[simp] theorem accept_turns (s : State) (v : Word) : (accept s v).turns = s.turns := rfl


@[simp] theorem dropWrite_params (s : State) : (dropWrite s).params = s.params := rfl

@[simp] theorem dropWrite_cmd (s : State) : (dropWrite s).cmd = s.cmd := rfl

@[simp] theorem dropWrite_arg (s : State) : (dropWrite s).arg = s.arg := rfl

@[simp] theorem dropWrite_inLen (s : State) : (dropWrite s).inLen = s.inLen := rfl

@[simp] theorem dropWrite_inBuf (s : State) : (dropWrite s).inBuf = s.inBuf := rfl

@[simp] theorem dropWrite_status (s : State) : (dropWrite s).status = statusOnDrop s.status := rfl

@[simp] theorem dropWrite_outLen (s : State) : (dropWrite s).outLen = s.outLen := rfl

@[simp] theorem dropWrite_outBuf (s : State) : (dropWrite s).outBuf = s.outBuf := rfl

@[simp] theorem dropWrite_res (s : State) : (dropWrite s).res = s.res := rfl

@[simp] theorem dropWrite_errCtx (s : State) : (dropWrite s).errCtx = s.errCtx := rfl

@[simp] theorem dropWrite_pending (s : State) : (dropWrite s).pending = s.pending := rfl

@[simp] theorem dropWrite_script (s : State) : (dropWrite s).script = s.script := rfl

@[simp] theorem dropWrite_reads (s : State) : (dropWrite s).reads = s.reads := rfl

@[simp] theorem dropWrite_turns (s : State) : (dropWrite s).turns = s.turns := rfl


@[simp] theorem commitOk_params (s : State) (r : Success) : (commitOk s r).params = s.params := rfl

@[simp] theorem commitOk_cmd (s : State) (r : Success) : (commitOk s r).cmd = s.cmd := rfl

@[simp] theorem commitOk_arg (s : State) (r : Success) : (commitOk s r).arg = s.arg := rfl

@[simp] theorem commitOk_inLen (s : State) (r : Success) : (commitOk s r).inLen = s.inLen := rfl

@[simp] theorem commitOk_inBuf (s : State) (r : Success) : (commitOk s r).inBuf = s.inBuf := rfl

@[simp] theorem commitOk_status (s : State) (r : Success) : (commitOk s r).status = statusOnOk s.status := rfl

@[simp] theorem commitOk_outLen (s : State) (r : Success) : (commitOk s r).outLen = lenWord r.out.length := rfl

@[simp] theorem commitOk_outBuf (s : State) (r : Success) : (commitOk s r).outBuf = outEntries r.out := rfl

@[simp] theorem commitOk_res (s : State) (r : Success) : (commitOk s r).res = r.res := rfl

@[simp] theorem commitOk_errCtx (s : State) (r : Success) : (commitOk s r).errCtx = 0#16 := rfl

@[simp] theorem commitOk_pending (s : State) (r : Success) : (commitOk s r).pending = none := rfl

@[simp] theorem commitOk_script (s : State) (r : Success) : (commitOk s r).script = s.script := rfl

@[simp] theorem commitOk_reads (s : State) (r : Success) : (commitOk s r).reads = s.reads := rfl

@[simp] theorem commitOk_turns (s : State) (r : Success) : (commitOk s r).turns = s.turns := rfl


@[simp] theorem reportError_params (s : State) (f : Failure) : (reportError s f).params = s.params := rfl

@[simp] theorem reportError_cmd (s : State) (f : Failure) : (reportError s f).cmd = s.cmd := rfl

@[simp] theorem reportError_arg (s : State) (f : Failure) : (reportError s f).arg = s.arg := rfl

@[simp] theorem reportError_inLen (s : State) (f : Failure) : (reportError s f).inLen = s.inLen := rfl

@[simp] theorem reportError_inBuf (s : State) (f : Failure) : (reportError s f).inBuf = s.inBuf := rfl

@[simp] theorem reportError_status (s : State) (f : Failure) : (reportError s f).status = statusOnErr s.status f.code := rfl

@[simp] theorem reportError_outLen (s : State) (f : Failure) : (reportError s f).outLen = lenWord f.msg.length := rfl

@[simp] theorem reportError_outBuf (s : State) (f : Failure) : (reportError s f).outBuf = outEntries f.msg := rfl

@[simp] theorem reportError_res (s : State) (f : Failure) : (reportError s f).res = 0#16 := rfl

@[simp] theorem reportError_errCtx (s : State) (f : Failure) : (reportError s f).errCtx = f.ctx := rfl

@[simp] theorem reportError_pending (s : State) (f : Failure) : (reportError s f).pending = none := rfl

@[simp] theorem reportError_script (s : State) (f : Failure) : (reportError s f).script = s.script := rfl

@[simp] theorem reportError_reads (s : State) (f : Failure) : (reportError s f).reads = s.reads := rfl

@[simp] theorem reportError_turns (s : State) (f : Failure) : (reportError s f).turns = s.turns := rfl


@[simp] theorem resetCodec_params (s : State) : (resetCodec s).params = s.params := rfl

@[simp] theorem resetCodec_cmd (s : State) : (resetCodec s).cmd = 0#16 := rfl

@[simp] theorem resetCodec_arg (s : State) : (resetCodec s).arg = 0#16 := rfl

@[simp] theorem resetCodec_inLen (s : State) : (resetCodec s).inLen = 0#16 := rfl

@[simp] theorem resetCodec_inBuf (s : State) : (resetCodec s).inBuf = [] := rfl

@[simp] theorem resetCodec_status (s : State) : (resetCodec s).status = Status.zero := rfl

@[simp] theorem resetCodec_outLen (s : State) : (resetCodec s).outLen = 0#16 := rfl

@[simp] theorem resetCodec_outBuf (s : State) : (resetCodec s).outBuf = [] := rfl

@[simp] theorem resetCodec_res (s : State) : (resetCodec s).res = 0#16 := rfl

@[simp] theorem resetCodec_errCtx (s : State) : (resetCodec s).errCtx = 0#16 := rfl

@[simp] theorem resetCodec_pending (s : State) : (resetCodec s).pending = none := rfl

@[simp] theorem resetCodec_script (s : State) : (resetCodec s).script = s.script := rfl

@[simp] theorem resetCodec_reads (s : State) : (resetCodec s).reads = s.reads := rfl

@[simp] theorem resetCodec_turns (s : State) : (resetCodec s).turns = s.turns := rfl


@[simp] theorem powerOn_params (p : Params) : (State.powerOn p).params = p := rfl

@[simp] theorem powerOn_cmd (p : Params) : (State.powerOn p).cmd = 0#16 := rfl

@[simp] theorem powerOn_arg (p : Params) : (State.powerOn p).arg = 0#16 := rfl

@[simp] theorem powerOn_inLen (p : Params) : (State.powerOn p).inLen = 0#16 := rfl

@[simp] theorem powerOn_inBuf (p : Params) : (State.powerOn p).inBuf = [] := rfl

@[simp] theorem powerOn_status (p : Params) : (State.powerOn p).status = Status.zero := rfl

@[simp] theorem powerOn_outLen (p : Params) : (State.powerOn p).outLen = 0#16 := rfl

@[simp] theorem powerOn_outBuf (p : Params) : (State.powerOn p).outBuf = [] := rfl

@[simp] theorem powerOn_res (p : Params) : (State.powerOn p).res = 0#16 := rfl

@[simp] theorem powerOn_errCtx (p : Params) : (State.powerOn p).errCtx = 0#16 := rfl

@[simp] theorem powerOn_pending (p : Params) : (State.powerOn p).pending = none := rfl

@[simp] theorem powerOn_script (p : Params) : (State.powerOn p).script = [] := rfl

@[simp] theorem powerOn_reads (p : Params) : (State.powerOn p).reads = [] := rfl

@[simp] theorem powerOn_turns (p : Params) : (State.powerOn p).turns = [] := rfl


@[simp] theorem hostRead_params (s : State) (a : Word) : (hostRead s a).params = s.params := rfl

@[simp] theorem hostRead_cmd (s : State) (a : Word) : (hostRead s a).cmd = s.cmd := rfl

@[simp] theorem hostRead_arg (s : State) (a : Word) : (hostRead s a).arg = s.arg := rfl

@[simp] theorem hostRead_inLen (s : State) (a : Word) : (hostRead s a).inLen = s.inLen := rfl

@[simp] theorem hostRead_inBuf (s : State) (a : Word) : (hostRead s a).inBuf = s.inBuf := rfl

@[simp] theorem hostRead_status (s : State) (a : Word) : (hostRead s a).status = s.status := rfl

@[simp] theorem hostRead_outLen (s : State) (a : Word) : (hostRead s a).outLen = s.outLen := rfl

@[simp] theorem hostRead_outBuf (s : State) (a : Word) : (hostRead s a).outBuf = s.outBuf := rfl

@[simp] theorem hostRead_res (s : State) (a : Word) : (hostRead s a).res = s.res := rfl

@[simp] theorem hostRead_errCtx (s : State) (a : Word) : (hostRead s a).errCtx = s.errCtx := rfl

@[simp] theorem hostRead_pending (s : State) (a : Word) : (hostRead s a).pending = s.pending := rfl

@[simp] theorem hostRead_script (s : State) (a : Word) : (hostRead s a).script = s.script := rfl

@[simp] theorem hostRead_reads (s : State) (a : Word) : (hostRead s a).reads = memRead s a :: s.reads := rfl

@[simp] theorem hostRead_turns (s : State) (a : Word) : (hostRead s a).turns = s.turns := rfl


@[simp] theorem setScript_params (s : State) (ts : List HostTask) : (setScript s ts).params = s.params := rfl

@[simp] theorem setScript_cmd (s : State) (ts : List HostTask) : (setScript s ts).cmd = s.cmd := rfl

@[simp] theorem setScript_arg (s : State) (ts : List HostTask) : (setScript s ts).arg = s.arg := rfl

@[simp] theorem setScript_inLen (s : State) (ts : List HostTask) : (setScript s ts).inLen = s.inLen := rfl

@[simp] theorem setScript_inBuf (s : State) (ts : List HostTask) : (setScript s ts).inBuf = s.inBuf := rfl

@[simp] theorem setScript_status (s : State) (ts : List HostTask) : (setScript s ts).status = s.status := rfl

@[simp] theorem setScript_outLen (s : State) (ts : List HostTask) : (setScript s ts).outLen = s.outLen := rfl

@[simp] theorem setScript_outBuf (s : State) (ts : List HostTask) : (setScript s ts).outBuf = s.outBuf := rfl

@[simp] theorem setScript_res (s : State) (ts : List HostTask) : (setScript s ts).res = s.res := rfl

@[simp] theorem setScript_errCtx (s : State) (ts : List HostTask) : (setScript s ts).errCtx = s.errCtx := rfl

@[simp] theorem setScript_pending (s : State) (ts : List HostTask) : (setScript s ts).pending = s.pending := rfl

@[simp] theorem setScript_script (s : State) (ts : List HostTask) : (setScript s ts).script = ts := rfl

@[simp] theorem setScript_reads (s : State) (ts : List HostTask) : (setScript s ts).reads = s.reads := rfl

@[simp] theorem setScript_turns (s : State) (ts : List HostTask) : (setScript s ts).turns = s.turns := rfl


@[simp] theorem takeTurn_params (s : State) : (takeTurn s).params = s.params := rfl

@[simp] theorem takeTurn_cmd (s : State) : (takeTurn s).cmd = s.cmd := rfl

@[simp] theorem takeTurn_arg (s : State) : (takeTurn s).arg = s.arg := rfl

@[simp] theorem takeTurn_inLen (s : State) : (takeTurn s).inLen = s.inLen := rfl

@[simp] theorem takeTurn_inBuf (s : State) : (takeTurn s).inBuf = s.inBuf := rfl

@[simp] theorem takeTurn_status (s : State) : (takeTurn s).status = s.status := rfl

@[simp] theorem takeTurn_outLen (s : State) : (takeTurn s).outLen = s.outLen := rfl

@[simp] theorem takeTurn_outBuf (s : State) : (takeTurn s).outBuf = s.outBuf := rfl

@[simp] theorem takeTurn_res (s : State) : (takeTurn s).res = s.res := rfl

@[simp] theorem takeTurn_errCtx (s : State) : (takeTurn s).errCtx = s.errCtx := rfl

@[simp] theorem takeTurn_pending (s : State) : (takeTurn s).pending = s.pending := rfl

@[simp] theorem takeTurn_script (s : State) : (takeTurn s).script = s.script := rfl

@[simp] theorem takeTurn_reads (s : State) : (takeTurn s).reads = s.reads := rfl

@[simp] theorem takeTurn_turns (s : State) : (takeTurn s).turns = s.turns.tail := rfl


@[simp] theorem commit_ok (s : State) (r : Success) : commit s (.ok r) = commitOk s r := rfl

@[simp] theorem commit_error (s : State) (f : Failure) : commit s (.error f) = reportError s f := rfl

@[simp] theorem commitIllegal_eq (s : State) (q : Snapshot) :
    commitIllegal s q = reportError s ⟨.illegalOperation, q.cmd, []⟩ := rfl

end Sys2Proof.Machine
end

