-- ==== Sys2Proof/Laws/Commit.lean ====
section
/-! SUPPORT. What a commit does, said once: `exec` answers a next state exactly when a snapshot is pending, that state is
the commit of one result, and a commit of a result that fits is a `Succeeds` or a `Fails`. -/

namespace Sys2Proof.Machine

theorem runPending_some {s : State} {q : Snapshot} (h : s.pending = some q) (op : Params → Snapshot → Result) :
    runPending s op = .next (commit s (op s.params q)) := by
  simp [runPending, h]

theorem runPending_none {s : State} (h : s.pending = none) (op : Params → Snapshot → Result) :
    runPending s op = .refused .noCommandPending := by
  simp [runPending, h]

/-- The result an instruction computes from the parameters and a snapshot: `operation(s)` of a legal word (60_exceptions.md
R204). It never looks at another field of State (10_state.md R34). -/
def resultOf (i : Instr) (p : Params) (q : Snapshot) : Result :=
  match i with
  | .frame => withInput p q (prepareFrame false)
  | .frameU => withInput p q (prepareFrame true)
  | .b2t => byteToTriplet p q.arg
  | .send => withInput p q (prepareForSending p q.arg)
  | .reasm => withInput p q (reassemble p)
  | .trim => withInput p q validateAndTrim
  | .decode => withInput p q (reassembleAndTrim p)
  | .dser => withInput p q decodeSerialNumber
  | .dled => withInput p q decodeLedState
  | .dmv => withInput p q getMillivolts
  | .emv => encodeMillivolts q.arg
  | .dmvp => withTwoInputs p q decodeMillivolts
  | .catSer => succeed (catalog p cmdGetSerialNumber) 0#16
  | .catVolt => succeed (catalog p cmdGetVoltage) 0#16
  | .catLed => succeed (catalog p cmdGetLedState) 0#16

/-- Every meaning is the commit of its result. -/
theorem exec_eq_runPending (i : Instr) (s : State) : exec i s = runPending s (resultOf i) := by
  cases i <;> rfl

theorem exec_pending {i : Instr} {s : State} {q : Snapshot} (h : s.pending = some q) :
    exec i s = .next (commit s (resultOf i s.params q)) := by
  rw [exec_eq_runPending, runPending_some h]

/-- All an instruction can do when it answers a next state. -/
theorem exec_next {i : Instr} {s t : State} (h : exec i s = .next t) :
    ∃ q, s.pending = some q ∧ t = commit s (resultOf i s.params q) := by
  rw [exec_eq_runPending] at h
  cases hp : s.pending with
  | none => simp [runPending, hp] at h
  | some q => exact ⟨q, rfl, by simpa [runPending, hp] using h.symm⟩

theorem lenWord_toNat {n : Nat} (h : n < 65536) : (lenWord n).toNat = n := by
  simp [lenWord]; omega

theorem keepsOperands_commitOk (s : State) (r : Success) : KeepsOperands s (commitOk s r) := by
  constructor <;> simp

theorem keepsOperands_reportError (s : State) (f : Failure) : KeepsOperands s (reportError s f) := by
  constructor <;> simp

/-- The commit of a success is what R33 says of one. -/
theorem commitOk_succeeds (s : State) (r : Success) (h : r.out.length < 65536) :
    Succeeds s (commitOk s r) r.out r.res where
  out := ⟨by simpa using lenWord_toNat h, fun i => by simpa [zext16] using outEntries_read r.out i⟩
  res := rfl
  errCtx := rfl
  status := rfl
  pending := rfl
  rest := keepsOperands_commitOk s r

/-- The report of an error is what R33 says of one. -/
theorem reportError_fails (s : State) (f : Failure) (h : f.msg.length < 65536) :
    Fails s (reportError s f) f.code.code f.ctx f.msg where
  out := ⟨by simpa using lenWord_toNat h, fun i => by simpa [zext16] using outEntries_read f.msg i⟩
  res := rfl
  errCtx := rfl
  status := rfl
  pending := rfl
  rest := keepsOperands_reportError s f

/-- Every commit leaves OUT in canonical form. -/
theorem commit_outBuf_wf (s : State) (r : Result) : (commit s r).outBuf.wf = true := by
  cases r with
  | ok v => exact outEntries_wf v.out
  | error f => exact outEntries_wf f.msg

/-- No commit writes IN. -/
theorem commit_inBuf (s : State) (r : Result) : (commit s r).inBuf = s.inBuf := by cases r <;> rfl

/-- The canonical form holds right after reset. -/
theorem powerOn_wf (p : Params) : (State.powerOn p).inBuf.wf = true ∧ (State.powerOn p).outBuf.wf = true := ⟨rfl, rfl⟩

theorem commitsOk_of_result {i : Instr} {s : State} {q : Snapshot} {out : List Byte} {res : Word}
    (hp : s.pending = some q) (hr : resultOf i s.params q = succeed out res) (hl : out.length < 65536) :
    CommitsOk i s out res :=
  ⟨_, by rw [exec_pending hp, hr]; rfl, commitOk_succeeds s ⟨out, res⟩ hl⟩

theorem commitsErr_of_result {i : Instr} {s : State} {q : Snapshot} {code : ErrorCode} {ctx : Word} {msg : List Byte}
    (hp : s.pending = some q) (hr : resultOf i s.params q = .error ⟨code, ctx, msg⟩) (hl : msg.length < 65536) :
    CommitsErr i s code.code ctx msg :=
  ⟨_, by rw [exec_pending hp, hr]; rfl, reportError_fails s ⟨code, ctx, msg⟩ hl⟩

end Sys2Proof.Machine
end

