-- ==== Sys2Proof/Laws/Bus.lean ====
section
/-! SUPPORT. The address map at each register, and all that one MemWrite and one step of the host can do. -/

namespace Sys2Proof.Machine

@[simp] theorem regAt_cmd (p : Params) : regAt p 0x0000#16 = some .cmd := rfl

@[simp] theorem regAt_arg (p : Params) : regAt p 0x0001#16 = some .arg := rfl

@[simp] theorem regAt_inLen (p : Params) : regAt p 0x0002#16 = some .inLen := rfl

@[simp] theorem regAt_status (p : Params) : regAt p 0x0003#16 = some .status := rfl

@[simp] theorem regAt_outLen (p : Params) : regAt p 0x0004#16 = some .outLen := rfl

@[simp] theorem regAt_res (p : Params) : regAt p 0x0005#16 = some .res := rfl

@[simp] theorem regAt_errCtx (p : Params) : regAt p 0x0006#16 = some .errCtx := rfl

/-- The bounds R8 sets on the capacities. -/
theorem capacities_of_valid {p : Params} (h : paramsValid p = true) :
    771 ≤ p.capIn ∧ p.capIn ≤ 12288 ∧ 3 * p.capIn + 6 ≤ p.capOut ∧ p.capOut ≤ 49152 := by
  simp only [paramsValid, capacitiesOk, Bool.and_eq_true, decide_eq_true_eq] at h
  omega

/-- The address of an IN entry that exists lies in the IN window alone (20_memory.md R50). -/
theorem regAt_inEntry {p : Params} (h : paramsValid p = true) {i : Nat} (hi : i < p.capIn) :
    regAt p (regAddr (.inEntry i)) = some (.inEntry i) := by
  have hc := capacities_of_valid h
  have hn : (regAddr (.inEntry i)).toNat = 0x1000 + i := by simp [regAddr]; omega
  simp only [regAt, hn]
  repeat' split
  all_goals first | omega | simp

/-- The address of an OUT entry that exists lies in the OUT window alone (R50). -/
theorem regAt_outEntry {p : Params} (h : paramsValid p = true) {i : Nat} (hi : i < p.capOut) :
    regAt p (regAddr (.outEntry i)) = some (.outEntry i) := by
  have hc := capacities_of_valid h
  have hn : (regAddr (.outEntry i)).toNat = 0x4000 + i := by simp [regAddr]; omega
  simp only [regAt, hn]
  repeat' split
  all_goals first | omega | simp

/-- What the map can have at an address, and which address that is. -/
theorem regAt_cases (p : Params) (a : Word) :
    (a = 0#16 ∧ regAt p a = some .cmd) ∨ (a = 1#16 ∧ regAt p a = some .arg) ∨ (a = 2#16 ∧ regAt p a = some .inLen) ∨
    (a = 3#16 ∧ regAt p a = some .status) ∨ (a = 4#16 ∧ regAt p a = some .outLen) ∨ (a = 5#16 ∧ regAt p a = some .res) ∨
    (a = 6#16 ∧ regAt p a = some .errCtx) ∨
    (∃ i, i < p.capIn ∧ i < 0x3000 ∧ a.toNat = 0x1000 + i ∧ regAt p a = some (.inEntry i)) ∨
    (∃ i, i < p.capOut ∧ a.toNat = 0x4000 + i ∧ regAt p a = some (.outEntry i)) ∨
    regAt p a = none := by
  have eq_of {n : Nat} (h : a.toNat = n) : a = BitVec.ofNat 16 n :=
    BitVec.eq_of_toNat_eq (by simp [← h])
  simp only [regAt]
  split
  · next h => exact .inl ⟨eq_of h, rfl⟩
  split
  · next h => exact .inr (.inl ⟨eq_of h, rfl⟩)
  split
  · next h => exact .inr (.inr (.inl ⟨eq_of h, rfl⟩))
  split
  · next h => exact .inr (.inr (.inr (.inl ⟨eq_of h, rfl⟩)))
  split
  · next h => exact .inr (.inr (.inr (.inr (.inl ⟨eq_of h, rfl⟩))))
  split
  · next h => exact .inr (.inr (.inr (.inr (.inr (.inl ⟨eq_of h, rfl⟩)))))
  split
  · next h => exact .inr (.inr (.inr (.inr (.inr (.inr (.inl ⟨eq_of h, rfl⟩))))))
  split
  · next h =>
    exact .inr (.inr (.inr (.inr (.inr (.inr (.inr (.inl ⟨a.toNat - 0x1000, h.2.2, by omega, by omega, rfl⟩)))))))
  split
  · next h =>
    exact .inr (.inr (.inr (.inr (.inr (.inr (.inr (.inr (.inl ⟨a.toNat - 0x4000, h.2, by omega, rfl⟩))))))))
  · exact .inr (.inr (.inr (.inr (.inr (.inr (.inr (.inr (.inr rfl))))))))

/-- Every effect a MemWrite can have (20_memory.md R54): CMD's, one stored word, or none. -/
theorem memWrite_cases (s : State) (a v : Word) :
    (a = 0#16 ∧ s.status.busy = false ∧ memWrite s a v = accept s v) ∨
    (a = 0#16 ∧ s.status.busy = true ∧ memWrite s a v = dropWrite s) ∨
    (a = 1#16 ∧ memWrite s a v = { s with arg := v }) ∨
    (a = 2#16 ∧ memWrite s a v = { s with inLen := v }) ∨
    (∃ i, i < s.params.capIn ∧ a.toNat = 0x1000 + i ∧ memWrite s a v = { s with inBuf := s.inBuf.write i v }) ∨
    memWrite s a v = s := by
  rcases regAt_cases s.params a with ⟨ha, h⟩ | ⟨ha, h⟩ | ⟨ha, h⟩ | ⟨-, h⟩ | ⟨-, h⟩ | ⟨-, h⟩ | ⟨-, h⟩ |
    ⟨i, hi, -, ha, h⟩ | ⟨i, -, -, h⟩ | h
  · cases hb : s.status.busy with
    | false => exact .inl ⟨ha, rfl, by simp [memWrite, h, writeCmd, hb]⟩
    | true => exact .inr (.inl ⟨ha, rfl, by simp [memWrite, h, writeCmd, hb]⟩)
  · exact .inr (.inr (.inl ⟨ha, by simp [memWrite, h]⟩))
  · exact .inr (.inr (.inr (.inl ⟨ha, by simp [memWrite, h]⟩)))
  · exact .inr (.inr (.inr (.inr (.inr (by simp [memWrite, h])))))
  · exact .inr (.inr (.inr (.inr (.inr (by simp [memWrite, h])))))
  · exact .inr (.inr (.inr (.inr (.inr (by simp [memWrite, h])))))
  · exact .inr (.inr (.inr (.inr (.inr (by simp [memWrite, h])))))
  · exact .inr (.inr (.inr (.inr (.inl ⟨i, hi, ha, by simp [memWrite, h]⟩))))
  · exact .inr (.inr (.inr (.inr (.inr (by simp [memWrite, h])))))
  · exact .inr (.inr (.inr (.inr (.inr (by simp [memWrite, h])))))

theorem hostStep_nil {s : State} (h : s.script = []) : hostStep s = s := by simp [hostStep, h]

theorem hostStep_cons {s : State} {t : HostTask} {ts : List HostTask} (h : s.script = t :: ts) :
    hostStep s = setScript (doAccess s (taskAccess s.params t))
      (taskRest s.params (accessValue s (taskAccess s.params t)) t ++ ts) := by
  simp [hostStep, h]

/-- No write changes the parameters. -/
theorem memWrite_params (s : State) (a v : Word) : (memWrite s a v).params = s.params := by
  rcases memWrite_cases s a v with ⟨-, -, h⟩ | ⟨-, -, h⟩ | ⟨-, h⟩ | ⟨-, h⟩ | ⟨i, -, -, h⟩ | h <;> rw [h] <;> rfl

/-- A write keeps the canonical form of IN. -/
theorem memWrite_inBuf_wf {s : State} (hw : s.inBuf.wf = true) (a v : Word) : (memWrite s a v).inBuf.wf = true := by
  rcases memWrite_cases s a v with ⟨-, -, h⟩ | ⟨-, -, h⟩ | ⟨-, h⟩ | ⟨-, h⟩ | ⟨i, -, -, h⟩ | h <;> rw [h]
  · exact hw
  · exact hw
  · exact hw
  · exact hw
  · exact Memory.wf_write hw i v
  · exact hw

/-- A write changes nothing of OUT. -/
theorem memWrite_outBuf (s : State) (a v : Word) : (memWrite s a v).outBuf = s.outBuf := by
  rcases memWrite_cases s a v with ⟨-, -, h⟩ | ⟨-, -, h⟩ | ⟨-, h⟩ | ⟨-, h⟩ | ⟨i, -, -, h⟩ | h <;> rw [h] <;> rfl

/-- Only the reset event makes no access. -/
theorem taskAccess_eq_none {p : Params} {t : HostTask} (h : taskAccess p t = none) : t = .reset := by
  cases t with
  | stmt st => cases st <;> simp [taskAccess] at h
  | load i vs => simp [taskAccess] at h
  | copy i n got => cases n <;> simp [taskAccess] at h
  | reset => rfl

/-- All a host step can do to a pending command: keep it, BUSY still 1 (10_state.md R31, R32), or discard it by the reset event
(70_reset_and_hazards.md R231). -/
theorem hostStep_pending {s : State} (hb : s.status.busy = true) :
    ((hostStep s).status.busy = true ∧ (hostStep s).pending = s.pending) ∨
    ((∃ ts, s.script = .reset :: ts) ∧ (hostStep s).pending = none ∧ (hostStep s).status = Status.zero) := by
  cases hs : s.script with
  | nil => rw [hostStep_nil hs]; exact .inl ⟨hb, rfl⟩
  | cons t ts =>
    rw [hostStep_cons hs]
    cases ha : taskAccess s.params t with
    | none =>
      obtain rfl := taskAccess_eq_none ha
      exact .inr ⟨⟨ts, rfl⟩, rfl, rfl⟩
    | some a =>
      refine .inl ?_
      cases a with
      | read a => exact ⟨hb, rfl⟩
      | write a v =>
        rcases memWrite_cases s a v with ⟨-, hf, -⟩ | ⟨-, -, h⟩ | ⟨-, h⟩ | ⟨-, h⟩ | ⟨i, -, -, h⟩ | h
        · simp [hb] at hf
        all_goals simp [doAccess, h, hb, statusOnDrop]

end Sys2Proof.Machine
end

