-- ==== Sys2Proof/Laws/FieldCodec.lean ====
section
/-! SUPPORT. All that the common message check can answer (42_field_codec.md R160), and the arithmetic of the millivolt
split and join (R164, R165). -/

namespace Sys2Proof.Machine

theorem checkMsg_nonByte {xs : List Word} {k : Nat} (h : FirstNonByte xs k) (len : Nat) (command : Byte) :
    checkMsg xs len command = .error ⟨.invalidInput, BitVec.ofNat 16 k, []⟩ := by
  simp [checkMsg, bytesOf_firstNonByte h]

theorem checkMsg_length {m : List Byte} {len : Nat} (h : m.length ≠ len) (command : Byte) :
    checkMsg (asElements m) len command = .error ⟨.invalidProtocolMessageLength, BitVec.ofNat 16 len, m⟩ := by
  simp [checkMsg, bytesOf_asElements, h, lenWord]

theorem checkMsg_command {m : List Byte} {len : Nat} (h : m.length = len) {command : Byte} (hc : m.getD 1 0#8 ≠ command) :
    checkMsg (asElements m) len command = .error ⟨.incorrectCommandByte, command.setWidth 16, m⟩ := by
  simp only [checkMsg, bytesOf_asElements, ok_bind, h, hc, ne_eq, not_true, not_false_eq_true, decide_false, decide_true,
    raiseIf_false, raiseIf_true, error_bind]
  rfl

theorem checkMsg_passes {m : List Byte} {len : Nat} (h : m.length = len) {command : Byte} (hc : m.getD 1 0#8 = command) :
    checkMsg (asElements m) len command = .ok m := by
  simp only [checkMsg, bytesOf_asElements, ok_bind, h, hc, ne_eq, not_true, decide_false, raiseIf_false]

theorem joinBytes_eq (high low : Byte) : joinBytes high low = BitVec.ofNat 16 (256 * high.toNat + low.toNat) := by
  apply BitVec.eq_of_toNat_eq
  have hh := high.isLt
  have hl := low.isLt
  have hs : high.toNat <<< 8 % 2 ^ 16 = high.toNat <<< 8 := by rw [Nat.shiftLeft_eq]; omega
  simp only [joinBytes, BitVec.toNat_or, BitVec.toNat_shiftLeft, zext16_toNat, BitVec.toNat_ofNat]
  rw [hs, ← Nat.shiftLeft_add_eq_or_of_lt (by omega), Nat.shiftLeft_eq]
  omega

theorem highByte_eq (mv : Word) : highByte mv = BitVec.ofNat 8 (mv.toNat / 256) := by
  have hm := mv.isLt
  have hand : ∀ n, n &&& 255 = n % 256 := fun n => Nat.and_two_pow_sub_one_eq_mod n 8
  apply BitVec.eq_of_toNat_eq
  simp [highByte, lowByte, hand, Nat.shiftRight_eq_div_pow]

theorem lowByte_and_eq (mv : Word) : lowByte (mv &&& 0xFF#16) = BitVec.ofNat 8 (mv.toNat % 256) := by
  have hand : ∀ n, n &&& 255 = n % 256 := fun n => Nat.and_two_pow_sub_one_eq_mod n 8
  apply BitVec.eq_of_toNat_eq
  simp [lowByte, hand]

end Sys2Proof.Machine
end

