-- ==== Sys2Proof/Laws/FrameEncoder.lean ====
section
/-! SUPPORT. The transport stream: its length, its grouping into note triplets, and the sequence SEND and the catalog wrap
around it (40_frame_encoder.md R100, R101, R104). -/

namespace Sys2Proof.Machine

/-- Grouping undoes flattening (R101). -/
theorem group3_flat (ts : List Triplet) : group3 (flat ts) = ts := by
  induction ts with
  | nil => rfl
  | cons t ts ih =>
    simp only [flat, List.flatMap_cons] at *
    simp [Triplet.fields, group3, ih]

theorem flat_length (ts : List Triplet) : (flat ts).length = 3 * ts.length := by
  induction ts with
  | nil => rfl
  | cons t ts ih =>
    simp only [flat, List.flatMap_cons] at *
    simp [Triplet.fields, ih]
    omega

/-- R104's third check never fires (60_exceptions.md R215). -/
theorem preTransport_length_mod (p : Params) (bs : List Byte) : (preTransport p bs).length % 3 = 0 := by
  induction bs with
  | nil => rfl
  | cons b bs ih =>
    simp [preTransport, noteFlat, Triplet.fields] at *
    omega

theorem group3_preTransport (p : Params) (bs : List Byte) : group3 (preTransport p bs) = bs.map (noteOf p) := by
  induction bs with
  | nil => rfl
  | cons b bs ih =>
    simp only [preTransport, List.flatMap_cons] at *
    simp [noteFlat, Triplet.fields, group3, ← ih]

/-- The wrapped stream is START, the note triplets, END (30_encoding.md R74). -/
theorem wrapStream_preTransport (p : Params) (bs : List Byte) : wrapStream p (preTransport p bs) = transportOf p bs := by
  simp [wrapStream, group3_preTransport, flat, Triplet.fields, transportOf, List.flatMap_map]
  congr 1
  funext a
  rw [← noteFlat_eq]
  rfl

theorem transportOf_length (p : Params) (bs : List Byte) : (transportOf p bs).length = 3 * (bs.length + 2) := by
  simp [transportOf]
  induction bs with
  | nil => simp
  | cons b bs ih =>
    simp [noteTripletOf] at *
    omega

/-- SEND of at least one frame of bytes. -/
theorem prepareForSending_bytes (p : Params) {frames : Word} (h : frames ≠ 0#16) (bs : List Byte) :
    prepareForSending p frames (asElements bs) = succeed (transportOf p bs) 0#16 := by
  simp [prepareForSending, h, bytesOf_asElements, preTransport_length_mod, wrapStream_preTransport]

/-- FRAME of a payload of bytes that is not too long. -/
theorem prepareFrame_bytes {bs : List Byte} (h : bs.length ≤ 254) :
    prepareFrame false (asElements bs) = succeed (frameOf bs) 0#16 := by
  simp [prepareFrame, maxPayload, show ¬ 254 < bs.length by omega, bytesOf_asElements]

end Sys2Proof.Machine
end

