-- ==== Sys2Proof/Laws/FrameDecoder.lean ====
section
/-! SUPPORT. All that REASM's and TRIM's functions can answer (41_frame_decoder.md R131, R132), one lemma a case, and that
the cases are all of them. -/

namespace Sys2Proof.Machine

theorem reassemble_nonByte (p : Params) {xs : List Word} {k : Nat} (h : FirstNonByte xs k) :
    reassemble p xs = .error ⟨.invalidInput, BitVec.ofNat 16 k, []⟩ := by
  simp [reassemble, bytesOf_firstNonByte h]

theorem reassemble_truncated (p : Params) {es : List Byte} (h : es.length % 3 ≠ 0) :
    reassemble p (asElements es) = .error ⟨.truncatedMidiMessage, BitVec.ofNat 16 es.length, []⟩ := by
  simp [reassemble, bytesOf_asElements, h, lenWord]

theorem reassemble_badTriplet {p : Params} {ts : List Triplet} {j : Nat} (h : FirstBadTriplet p ts j) :
    reassemble p (asElements (flat ts)) = .error ⟨.malformedNoteTriplet, BitVec.ofNat 16 j, []⟩ := by
  have hr := recombineFrom_bad h 0
  simp only [Nat.zero_add] at hr
  simp [reassemble, bytesOf_asElements, flat_length, group3_flat, hr, lenWord]

theorem reassemble_legal {p : Params} {ts : List Triplet} (h : LegalTriplets p ts) :
    reassemble p (asElements (flat ts)) = succeed (carriedBytes p ts) 0#16 := by
  simp [reassemble, bytesOf_asElements, flat_length, group3_flat, recombineFrom_legal h]

theorem carriedBytes_length (p : Params) (ts : List Triplet) : (carriedBytes p ts).length ≤ ts.length := by
  simp only [carriedBytes, List.length_map]
  exact List.length_filter_le _ _

theorem validateAndTrim_nonByte {xs : List Word} {k : Nat} (h : FirstNonByte xs k) :
    validateAndTrim xs = .error ⟨.invalidInput, BitVec.ofNat 16 k, []⟩ := by
  simp [validateAndTrim, bytesOf_firstNonByte h]

theorem validateAndTrim_nil : validateAndTrim [] = .error ⟨.invalidProtocolMessageLength, 1#16, []⟩ := rfl

theorem validateAndTrim_short {len : Byte} {bs : List Byte} (h : (len :: bs).length < len.toNat) :
    validateAndTrim (asElements (len :: bs)) = .error ⟨.invalidProtocolMessageLength, len.setWidth 16, len :: bs⟩ := by
  simp only [validateAndTrim, bytesOf_asElements, ok_bind, h, decide_true, raiseIf_true, error_bind]
  rfl

theorem validateAndTrim_enough {len : Byte} {bs : List Byte} (h : len.toNat ≤ (len :: bs).length) :
    validateAndTrim (asElements (len :: bs)) = succeed ((len :: bs).take len.toNat) 0#16 := by
  simp only [validateAndTrim, bytesOf_asElements, ok_bind, Nat.not_lt.mpr h, decide_false, raiseIf_false]

end Sys2Proof.Machine
end

