-- ==== Sys2Proof/Laws/PerInstr.lean ====
section
/-! SUPPORT. The family `LegalWord` of statements about every instruction as syntax: its command word keeps the reserved
bits 0, sets UNORD only with OP 0 and SEL only with OP 0xB, and never SEL 3 (30_encoding.md R80 to R84). -/

namespace Sys2Proof.Laws.LegalWord

/-- The word of the mnemonic breaks none of R84's clauses. -/
def Statement (i : Instr) : Prop :=
  reservedField (encode i) = 0#9 ∧ opField (encode i) < 0xC#4 ∧
  (unordField (encode i) = 1#1 → opField (encode i) = 0x0#4) ∧
  (selField (encode i) ≠ 0#2 → opField (encode i) = 0xB#4) ∧
  selField (encode i) ≠ 3#2

theorem frame : Statement .frame := by unfold Statement; decide

theorem frameU : Statement .frameU := by unfold Statement; decide

theorem b2t : Statement .b2t := by unfold Statement; decide

theorem send : Statement .send := by unfold Statement; decide

theorem reasm : Statement .reasm := by unfold Statement; decide

theorem trim : Statement .trim := by unfold Statement; decide

theorem decode : Statement .decode := by unfold Statement; decide

theorem dser : Statement .dser := by unfold Statement; decide

theorem dled : Statement .dled := by unfold Statement; decide

theorem dmv : Statement .dmv := by unfold Statement; decide

theorem emv : Statement .emv := by unfold Statement; decide

theorem dmvp : Statement .dmvp := by unfold Statement; decide

theorem catSer : Statement .catSer := by unfold Statement; decide

theorem catVolt : Statement .catVolt := by unfold Statement; decide

theorem catLed : Statement .catLed := by unfold Statement; decide

end Sys2Proof.Laws.LegalWord
end

