-- ==== Sys2Proof/Laws/Step.lean ====
section
/-! SUPPORT. All that one step can do, said once: whose turn it is, and the state it leaves. -/

namespace Sys2Proof.Machine

theorem step_valid {s : State} (h : paramsValid s.params = true) : step s = agentStep s := by simp [step, h]

theorem step_invalid {s : State} (h : paramsValid s.params = false) : step s = .refused .badParameters := by
  simp [step, h]

theorem agentStep_codec {s : State} (h : nextAgent s = some .codec) : agentStep s = codecStep (takeTurn s) := by
  simp [agentStep, h]

theorem agentStep_host {s : State} (h : nextAgent s = some .host) : agentStep s = .next (hostStep (takeTurn s)) := by
  simp [agentStep, h]

theorem agentStep_none {s : State} (h : nextAgent s = none) : agentStep s = .next s := by
  simp [agentStep, h]

theorem codecStep_none {s : State} (h : s.pending = none) : codecStep s = .next s := by simp [codecStep, h]

theorem codecStep_ok {s : State} {q : Snapshot} {i : Instr} (h : s.pending = some q) (hd : decodeWord q.cmd = .ok i) :
    codecStep s = exec i s := by simp [codecStep, h, hd]

theorem codecStep_error {s : State} {q : Snapshot} {e : IllegalWord} (h : s.pending = some q)
    (hd : decodeWord q.cmd = .error e) : codecStep s = .next (commitIllegal s q) := by simp [codecStep, h, hd]

/-- Every way a step answers a next state. -/
theorem step_cases {s t : State} (h : step s = .next t) :
    paramsValid s.params = true ∧
    ((nextAgent s = none ∧ t = s) ∨
     (nextAgent s = some .host ∧ t = hostStep (takeTurn s)) ∨
     (nextAgent s = some .codec ∧ s.pending = none ∧ t = takeTurn s) ∨
     (∃ q i, nextAgent s = some .codec ∧ s.pending = some q ∧ decodeWord q.cmd = .ok i ∧
        t = commit (takeTurn s) (resultOf i s.params q)) ∨
     (∃ q e, nextAgent s = some .codec ∧ s.pending = some q ∧ decodeWord q.cmd = .error e ∧
        t = commitIllegal (takeTurn s) q)) := by
  cases hv : paramsValid s.params with
  | false => simp [step_invalid hv] at h
  | true =>
    refine ⟨rfl, ?_⟩
    rw [step_valid hv] at h
    cases hn : nextAgent s with
    | none =>
      rw [agentStep_none hn] at h
      exact .inl ⟨rfl, by simpa using h.symm⟩
    | some a =>
      cases a with
      | host =>
        rw [agentStep_host hn] at h
        exact .inr (.inl ⟨rfl, by simpa using h.symm⟩)
      | codec =>
        rw [agentStep_codec hn] at h
        cases hp : s.pending with
        | none =>
          rw [codecStep_none (by simpa using hp)] at h
          exact .inr (.inr (.inl ⟨rfl, rfl, by simpa using h.symm⟩))
        | some q =>
          have hp' : (takeTurn s).pending = some q := by simpa using hp
          cases hd : decodeWord q.cmd with
          | ok i =>
            rw [codecStep_ok hp' hd, exec_pending hp'] at h
            exact .inr (.inr (.inr (.inl ⟨q, i, rfl, rfl, hd, by simpa using h.symm⟩)))
          | error e =>
            rw [codecStep_error hp' hd] at h
            exact .inr (.inr (.inr (.inr ⟨q, e, rfl, rfl, hd, by simpa using h.symm⟩)))

end Sys2Proof.Machine
end

