-- ==== Sys2Proof/Tests/Slice0.lean ====
section
/-! SUPPORT. The model's own tests: the well-formedness smoke, the decoding of words written out from 30_encoding.md R80
and R81, vectors of 95_test_vectors.md (their numbers stand in the names), and for every statement of the certificate a
concrete state that meets its hypotheses. -/

namespace Sys2Proof.Tests

open Sys2Proof Sys2Proof.Machine

/-! ## Well-formedness: each check refuses an ill-formed term -/

theorem test_wf_every_mnemonic : Instr.wellFormed .catLed = true := by decide

theorem test_wf_in_entry_refused : HostStmt.wellFormed vectorParams (.wr (.inEntry 1024) (.lit 5#16)) = false := by decide

theorem test_wf_in_entry_accepted : HostStmt.wellFormed vectorParams (.wr (.inEntry 1023) (.lit 5#16)) = true := by decide

theorem test_wf_out_entry_refused : HostStmt.wellFormed vectorParams (.rd (.outEntry 3078)) = false := by decide

theorem test_wf_ldin_refused :
    HostStmt.wellFormed { vectorParams with capIn := 5 } (.ldin [.start, .triplet .note .note .note]) = false := by decide

/-- R7: a START that is a note triplet. -/
theorem test_params_start_in_band_refused : paramsValid { vectorParams with start := ⟨0x90#8, 15#8, 0#8⟩ } = false := by decide

/-- R7: an END that is a note triplet. -/
theorem test_params_stop_in_band_refused : paramsValid { vectorParams with stop := ⟨0x90#8, 0#8, 15#8⟩ } = false := by decide

/-- R8: CAP_IN below 771, above 12288; CAP_OUT below 3 * CAP_IN + 6, above 49152. -/
theorem test_params_capacities_refused :
    paramsValid { vectorParams with capIn := 770 } = false ∧ paramsValid { vectorParams with capIn := 12289, capOut := 49152 } = false ∧
    paramsValid { vectorParams with capOut := 3077 } = false ∧ paramsValid { vectorParams with capOut := 49153 } = false := by decide

theorem test_params_vectors_accepted : paramsValid vectorParams = true := by decide

/-- D5: START = END is admitted. -/
theorem test_params_equal_markers_accepted : paramsValid { vectorParams with stop := vectorParams.start } = true := by decide

theorem test_memory_wf_refuses_zero : Memory.wf [(3, 0#16)] = false := by decide

theorem test_memory_wf_refuses_order : Memory.wf [(3, 1#16), (3, 2#16)] = false := by decide

/-! ## Decoding: words written out bit by bit as 0000 0000 0 U SS OOOO (R80), with their mnemonics (R81) -/

theorem test_decode_frame : decodeWord 0b0000000000000000#16 = .ok .frame := by decide

theorem test_decode_frameU : decodeWord 0b0000000001000000#16 = .ok .frameU := by decide

theorem test_decode_b2t : decodeWord 0b0000000000000001#16 = .ok .b2t := by decide

theorem test_decode_send : decodeWord 0b0000000000000010#16 = .ok .send := by decide

theorem test_decode_reasm : decodeWord 0b0000000000000011#16 = .ok .reasm := by decide

theorem test_decode_trim : decodeWord 0b0000000000000100#16 = .ok .trim := by decide

theorem test_decode_decode : decodeWord 0b0000000000000101#16 = .ok .decode := by decide

theorem test_decode_dser : decodeWord 0b0000000000000110#16 = .ok .dser := by decide

theorem test_decode_dled : decodeWord 0b0000000000000111#16 = .ok .dled := by decide

theorem test_decode_dmv : decodeWord 0b0000000000001000#16 = .ok .dmv := by decide

theorem test_decode_emv : decodeWord 0b0000000000001001#16 = .ok .emv := by decide

theorem test_decode_dmvp : decodeWord 0b0000000000001010#16 = .ok .dmvp := by decide

theorem test_decode_catSer : decodeWord 0b0000000000001011#16 = .ok .catSer := by decide

theorem test_decode_catVolt : decodeWord 0b0000000000011011#16 = .ok .catVolt := by decide

theorem test_decode_catLed : decodeWord 0b0000000000101011#16 = .ok .catLed := by decide

/-- GL1 to GL8: each clause of R84 by its name. -/
theorem test_decode_illegal :
    decodeWord 0x000C#16 = .error .reservedOp ∧ decodeWord 0x000F#16 = .error .reservedOp ∧
    decodeWord 0x0041#16 = .error .unordWithoutFrame ∧ decodeWord 0x0010#16 = .error .selWithoutCat ∧
    decodeWord 0x003B#16 = .error .reservedSel ∧ decodeWord 0x0080#16 = .error .reservedBits ∧
    decodeWord 0x8000#16 = .error .reservedBits ∧ decodeWord 0x004B#16 = .error .unordWithoutFrame := by decide

theorem test_decodeTableWord :
    decodeTableWord 16 0x2B = some .catLed ∧ decodeTableWord 16 0x3B = none ∧ decodeTableWord 16 0x10000 = none := by decide

/-! ## One command each, from the spec's vectors (N = 0x90, START = (0xB0, 0x70, 0), END = (0xB0, 0x71, 0)) -/

/-- Operands with IN_LEN the length of the list. -/
def operands (arg : Word) (xs : List Word) : Snapshot := ⟨0#16, arg, BitVec.ofNat 16 xs.length, xs⟩

/-- After reset, with a snapshot pending. -/
def holding (q : Snapshot) : State :=
  { State.reset with cmd := q.cmd, status := ⟨true, false, false, false, 0#4⟩, pending := some q }

/-- OUT, RES, ERR_CTX and STATUS of a next state. -/
def view : Host.Outcome State Fault Refusal → Option (List Nat × Nat × Nat × Nat)
  | .next t => some ((outWords t).map BitVec.toNat, t.res.toNat, t.errCtx.toNat, (statusWord t.status).toNat)
  | _ => none

/-- The view of one command on one operand list. -/
def result (i : Instr) (arg : Word) (xs : List Word) : Option (List Nat × Nat × Nat × Nat) :=
  view (exec i (holding (operands arg xs)))

theorem test_frame_FE1 : result .frame 0#16 [1#16, 2#16, 3#16] = some ([4, 1, 2, 3], 0, 0, 0x0002) := by decide

theorem test_frame_FE8 : result .frame 0#16 [1#16, 0x100#16, 0x200#16] = some ([], 0, 1, 0x0076) := by decide

theorem test_frameU_FE9 : result .frameU 0#16 [1#16, 2#16, 3#16] = some ([], 0, 0, 0x0026) := by decide

theorem test_b2t_K4 : result .b2t 0x2E#16 [] = some ([0x90, 0x02, 0x0E], 0, 0, 0x0002) := by decide

theorem test_b2t_FE16 : result .b2t 0x100#16 [] = some ([], 0, 256, 0x0076) := by decide

theorem test_send_FE23 :
    result .send 2#16 [2#16, 8#16, 2#16, 15#16] =
      some ([0xB0, 0x70, 0, 0x90, 0, 2, 0x90, 0, 8, 0x90, 0, 2, 0x90, 0, 0xF, 0xB0, 0x71, 0], 0, 0, 0x0002) := by decide

theorem test_send_FE18 : result .send 0#16 [2#16, 0x1FF#16] = some ([], 0, 0, 0x0016) := by decide

theorem test_reasm_FD5 :
    result .reasm 0#16 [0x90#16, 0xA#16, 0xB#16, 0xB0#16, 0x71#16, 0#16, 0xB0#16, 0x70#16, 0#16, 0x90#16, 0#16, 1#16] =
      some ([0xAB, 0x01], 0, 0, 0x0002) := by decide

theorem test_reasm_K7 :
    result .reasm 0#16 [0xB0#16, 0x70#16, 0#16, 0xB0#16, 0x70#16, 1#16] = some ([], 0, 1, 0x0086) := by decide

theorem test_trim_FD11 :
    result .trim 0#16 [4#16, 18#16, 0x2E#16, 0xE0#16, 0xFF#16] = some ([4, 18, 0x2E, 0xE0], 0, 0, 0x0002) := by decide

theorem test_trim_FD13 : result .trim 0#16 [4#16, 18#16, 0x2E#16] = some ([4, 18, 0x2E], 0, 4, 0x0046) := by decide

theorem test_decode_K5 :
    result .decode 0#16 [0xB0#16, 0x70#16, 0#16, 0x90#16, 0#16, 4#16, 0x90#16, 1#16, 2#16, 0x90#16, 2#16, 0xE#16,
      0x90#16, 0xE#16, 0#16, 0xB0#16, 0x71#16, 0#16] = some ([4, 18, 0x2E, 0xE0], 0, 0, 0x0002) := by decide

theorem test_decode_FD22 : result .decode 0#16 [0xB0#16, 0x70#16, 0#16, 0x90#16] = some ([], 0, 4, 0x0066) := by decide

theorem test_dser_FC1 :
    result .dser 0#16 [10#16, 8#16, 49#16, 50#16, 51#16, 52#16, 53#16, 54#16, 55#16, 56#16] =
      some ([49, 50, 51, 52, 53, 54, 55, 56], 0, 0, 0x0002) := by decide

theorem test_dser_FC5 :
    result .dser 0#16 [10#16, 8#16, 49#16, 50#16, 51#16, 0x80#16, 53#16, 54#16, 55#16, 0xFF#16] =
      some ([10, 8, 49, 50, 51, 0x80, 53, 54, 55, 0xFF], 0, 5, 0x0096) := by decide

theorem test_dled_FC8 : result .dled 0#16 [3#16, 15#16, 1#16] = some ([], 1, 0, 0x0002) := by decide

theorem test_dled_FC12 : result .dled 0#16 [2#16, 18#16] = some ([2, 18], 0, 3, 0x0046) := by decide

theorem test_dmv_FC15 : result .dmv 0#16 [4#16, 18#16, 0x2E#16, 0xE0#16] = some ([], 12000, 0, 0x0002) := by decide

theorem test_dmv_FC19 :
    result .dmv 0#16 [4#16, 15#16, 0x2E#16, 0xE0#16] = some ([4, 15, 0x2E, 0xE0], 0, 18, 0x0056) := by decide

theorem test_emv_FC23 : result .emv 48000#16 [] = some ([0xBB, 0x80], 0, 0, 0x0002) := by decide

theorem test_dmvp_FC27 : result .dmvp 0#16 [0x2E#16, 0xE0#16] = some ([], 12000, 0, 0x0002) := by decide

theorem test_dmvp_FC30 : result .dmvp 0#16 [1#16, 2#16, 3#16] = some ([], 0, 3, 0x00C6) := by decide

theorem test_catSer_K1 :
    result .catSer 0#16 [] = some ([0xB0, 0x70, 0, 0x90, 0, 2, 0x90, 0, 8, 0xB0, 0x71, 0], 0, 0, 0x0002) := by decide

theorem test_catVolt_K2 :
    result .catVolt 0#16 [] = some ([0xB0, 0x70, 0, 0x90, 0, 2, 0x90, 1, 2, 0xB0, 0x71, 0], 0, 0, 0x0002) := by decide

theorem test_catLed_K3 :
    result .catLed 0#16 [] = some ([0xB0, 0x70, 0, 0x90, 0, 2, 0x90, 0, 0xF, 0xB0, 0x71, 0], 0, 0, 0x0002) := by decide

/-! ## The transaction and the register space, one step or one access each -/

/-- GL9: IllegalOperation comes before MalformedRequest, by a step. -/
theorem test_step_illegal_GL9 :
    view (step (holding ⟨0x0013#16, 0#16, 5000#16, []⟩)) = some ([], 0, 0x0013, 0x00B6) := by decide

/-- GL10: IN_LEN = 1025 with CAP_IN = 1024. -/
theorem test_step_malformed_GL10 :
    view (step (holding ⟨0#16, 0#16, 1025#16, []⟩)) = some ([], 0, 1025, 0x00C6) := by decide

/-- T12: SEND right after reset. -/
theorem test_step_fetched_T12 : view (step (State.reset.withFetchWord 16 2)) = some ([], 0, 0, 0x0016) := by decide

/-- T1: all of these read 0 after reset. -/
theorem test_reset_reads_T1 :
    [0#16, 1#16, 2#16, 3#16, 4#16, 5#16, 6#16, 0x1000#16, 0x4000#16].map (memRead State.reset) = List.replicate 9 0#16 := by
  decide

/-- T3 and T4: writes to STATUS, RES, OUT[0] and 0x1400 are ignored. -/
theorem test_ignored_writes_T3_T4 :
    memWrite State.reset 3#16 0xFFFF#16 = State.reset ∧ memWrite State.reset 5#16 7#16 = State.reset ∧
    memWrite State.reset 0x4000#16 9#16 = State.reset ∧ memWrite State.reset 0x1400#16 5#16 = State.reset := by decide

/-- T8: STATUS reads BUSY and DROP after a second CMD write, and CMD keeps the first word. -/
theorem test_drop_T8 :
    memRead (memWrite (memWrite State.reset 0#16 0x000B#16) 0#16 0x002B#16) 3#16 = 0x0009#16 ∧
    memRead (memWrite (memWrite State.reset 0#16 0x000B#16) 0#16 0x002B#16) 0#16 = 0x000B#16 := by decide

/-! ## Witnesses: for each statement, a state and operands that meet its hypotheses -/

/-- The state of a next outcome. -/
def nextOf : Host.Outcome State Fault Refusal → State
  | .next t => t
  | _ => State.reset

/-- A snapshot that fits is ready in `holding`. -/
theorem ready_holding (q : Snapshot) (hf : q.inLen.toNat ≤ 1024) (hl : q.input.length = q.inLen.toNat) :
    Ready (holding q) q := ⟨(by show paramsValid vectorParams = true; decide), rfl, hf, hl⟩

theorem witness_illegal :
    decodeWord 0x000C#16 = .error .reservedOp ∧ State.reset.status.busy = false ∧
    paramsValid (holding ⟨0x000C#16, 0#16, 0#16, []⟩).params = true ∧
    nextAgent (holding ⟨0x000C#16, 0#16, 0#16, []⟩) = some .codec := by decide

/-- A list of at most 1024 words is ready as operands. -/
theorem ready_operands (arg : Word) (xs : List Word) (h : xs.length ≤ 1024) :
    Ready (holding (operands arg xs)) (operands arg xs) := by
  have hn : (operands arg xs).inLen.toNat = xs.length := by
    show (BitVec.ofNat 16 xs.length).toNat = _
    rw [BitVec.toNat_ofNat, Nat.mod_eq_of_lt (by omega)]
  exact ready_holding _ (hn ▸ h) hn.symm

/-- 255 zeros: the least length that is too long. -/
theorem witness_frame_too_long :
    ∃ xs : List Word, Ready (holding (operands 0#16 xs)) (operands 0#16 xs) ∧ (operands 0#16 xs).input.length = 255 :=
  ⟨_, ready_operands _ _ (Nat.le_of_eq (List.length_replicate (n := 255) (a := 0#16)) |>.trans (by decide)),
    List.length_replicate⟩

/-- 254 bytes 0xAA: the longest that is framed. -/
theorem witness_frame_longest :
    ∃ bs : List Byte, Ready (holding (operands 0#16 (asElements bs))) (operands 0#16 (asElements bs)) ∧ bs.length = 254 := by
  have h : (List.replicate 254 0xAA#8).length = 254 := List.length_replicate
  exact ⟨_, ready_operands _ _ (by rw [asElements, List.length_map, h]; decide), h⟩

/-- For FRAME, SEND, REASM, TRIM, DECODE and the coders: element 1 is the first that is not a byte, just above 0xFF. -/
theorem witness_first_non_byte :
    Ready (holding (operands 1#16 [0xFF#16, 0x100#16, 0x200#16])) (operands 1#16 [0xFF#16, 0x100#16, 0x200#16]) ∧
    (operands 1#16 [0xFF#16, 0x100#16, 0x200#16]).input.length ≤ 254 ∧
    (operands 1#16 [0xFF#16, 0x100#16, 0x200#16]).arg ≠ 0#16 ∧
    FirstNonByte (operands 1#16 [0xFF#16, 0x100#16, 0x200#16]).input 1 :=
  ⟨ready_holding _ (by decide) (by decide), by decide, by decide, by decide, by decide⟩

theorem witness_b2t : (holding (operands 0x100#16 [])).pending = some (operands 0x100#16 []) ∧ 255 < (0x100#16).toNat ∧
    (holding (operands 0xFF#16 [])).pending = some (operands 0xFF#16 []) ∧
    (operands 0xFF#16 []).arg = (0xFF#8).setWidth 16 := by decide

theorem witness_send :
    Ready (holding (operands 0#16 [])) (operands 0#16 []) ∧ (operands 0#16 []).arg = 0#16 ∧
    Ready (holding (operands 1#16 (asElements [2#8, 18#8]))) (operands 1#16 (asElements [2#8, 18#8])) ∧
    (operands 1#16 (asElements [2#8, 18#8])).arg ≠ 0#16 :=
  ⟨ready_holding _ (by decide) (by decide), rfl, ready_holding _ (by decide) (by decide), by decide⟩

/-- For the three CAT commands, EMV and FRAME.U: something is pending. -/
theorem witness_pending : Ready (holding (operands 65535#16 [])) (operands 65535#16 []) ∧
    (holding (operands 65535#16 [])).pending = some (operands 65535#16 []) :=
  ⟨ready_holding _ (by decide) (by decide), rfl⟩

theorem witness_truncated :
    Ready (holding (operands 0#16 (asElements [0xB0#8, 0x70#8, 0#8, 0x90#8]))) (operands 0#16 (asElements [0xB0#8, 0x70#8, 0#8, 0x90#8])) ∧
    [0xB0#8, 0x70#8, 0#8, 0x90#8].length % 3 ≠ 0 :=
  ⟨ready_holding _ (by decide) (by decide), by decide⟩

/-- K7: START, then a near-miss of START. -/
theorem witness_bad_triplet :
    Ready (holding (operands 0#16 (asElements (flat [⟨0xB0#8, 0x70#8, 0#8⟩, ⟨0xB0#8, 0x70#8, 1#8⟩]))))
      (operands 0#16 (asElements (flat [⟨0xB0#8, 0x70#8, 0#8⟩, ⟨0xB0#8, 0x70#8, 1#8⟩]))) ∧
    FirstBadTriplet vectorParams [⟨0xB0#8, 0x70#8, 0#8⟩, ⟨0xB0#8, 0x70#8, 1#8⟩] 1 :=
  ⟨ready_holding _ (by decide) (by decide),
    [⟨0xB0#8, 0x70#8, 0#8⟩], ⟨0xB0#8, 0x70#8, 1#8⟩, [], rfl, rfl, by simp [LegalTriplets, ControlTriplet, vectorParams],
    by simp [ControlTriplet, vectorParams], by simp [NoteTriplet, vectorParams]⟩

/-- START, one note triplet of nibbles 15, END. -/
def threeTriplets : List Triplet := [⟨0xB0#8, 0x70#8, 0#8⟩, ⟨0x90#8, 15#8, 15#8⟩, ⟨0xB0#8, 0x71#8, 0#8⟩]

theorem threeTriplets_legal : LegalTriplets vectorParams threeTriplets := by
  simp [LegalTriplets, threeTriplets, ControlTriplet, NoteTriplet, vectorParams]

/-- REASM and DECODE of legal triplets; DECODE's stream [0xFF] is shorter than it declares. -/
theorem witness_legal_triplets :
    Ready (holding (operands 0#16 (asElements (flat threeTriplets)))) (operands 0#16 (asElements (flat threeTriplets))) ∧
    LegalTriplets (holding (operands 0#16 (asElements (flat threeTriplets)))).params threeTriplets ∧
    carriedBytes vectorParams threeTriplets = [0xFF#8] ∧ [0xFF#8].length < (0xFF#8).toNat :=
  ⟨ready_holding _ (by decide) (by decide), threeTriplets_legal, by decide, by decide⟩

/-- DECODE of no note triplet at all, and of a stream exactly as long as it declares. -/
theorem witness_decode_empty_and_exact :
    LegalTriplets vectorParams [] ∧ carriedBytes vectorParams [] = [] ∧
    LegalTriplets vectorParams [⟨0x90#8, 0#8, 1#8⟩] ∧ carriedBytes vectorParams [⟨0x90#8, 0#8, 1#8⟩] = [1#8] ∧
    (1#8).toNat ≤ [1#8].length :=
  ⟨by simp [LegalTriplets], by decide, by simp [LegalTriplets, NoteTriplet, vectorParams], by decide, by decide⟩

theorem witness_trim :
    Ready (holding (operands 0#16 [])) (operands 0#16 []) ∧ (operands 0#16 []).input = [] ∧
    Ready (holding (operands 0#16 (asElements [2#8]))) (operands 0#16 (asElements [2#8])) ∧ [2#8].length < (2#8).toNat ∧
    Ready (holding (operands 0#16 (asElements [1#8]))) (operands 0#16 (asElements [1#8])) ∧ (1#8).toNat ≤ [1#8].length :=
  ⟨ready_holding _ (by decide) (by decide), rfl, ready_holding _ (by decide) (by decide), by decide,
    ready_holding _ (by decide) (by decide), by decide⟩

/-- A message one too short for DLED, and one of its length with another command. -/
theorem witness_message_checks :
    Ready (holding (operands 0#16 (asElements [3#8, 15#8]))) (operands 0#16 (asElements [3#8, 15#8])) ∧ [3#8, 15#8].length ≠ 3 ∧
    Ready (holding (operands 0#16 (asElements [3#8, 18#8, 1#8]))) (operands 0#16 (asElements [3#8, 18#8, 1#8])) ∧
    [3#8, 18#8, 1#8].length = 3 ∧ [3#8, 18#8, 1#8].getD 1 0#8 ≠ 15#8 :=
  ⟨ready_holding _ (by decide) (by decide), by decide, ready_holding _ (by decide) (by decide), by decide, by decide⟩

/-- A serial message whose last byte is 0x7F, and one whose last byte is 0x80. -/
theorem witness_dser :
    Ready (holding (operands 0#16 (asElements [10#8, 8#8, 0#8, 0#8, 0#8, 0#8, 0#8, 0#8, 0#8, 0x7F#8])))
      (operands 0#16 (asElements [10#8, 8#8, 0#8, 0#8, 0#8, 0#8, 0#8, 0#8, 0#8, 0x7F#8])) ∧
    (∀ k, 2 ≤ k → ([10#8, 8#8, 0#8, 0#8, 0#8, 0#8, 0#8, 0#8, 0#8, 0x7F#8].getD k 0#8).toNat ≤ 127) ∧
    127 < ([10#8, 8#8, 0#8, 0#8, 0#8, 0#8, 0#8, 0#8, 0#8, 0x80#8].getD 9 0#8).toNat ∧
    (∀ j, 2 ≤ j → j < 9 → ([10#8, 8#8, 0#8, 0#8, 0#8, 0#8, 0#8, 0#8, 0#8, 0x80#8].getD j 0#8).toNat ≤ 127) := by
  refine ⟨ready_holding _ (by decide) (by decide), fun k hk => ?_, by decide, by decide⟩
  by_cases h : k < 10
  · revert k; decide
  · rw [List.getD_eq_default _ _ (by simp; omega)]; decide

theorem witness_dled :
    Ready (holding (operands 0#16 (asElements [3#8, 15#8, 2#8]))) (operands 0#16 (asElements [3#8, 15#8, 2#8])) ∧ 1 < (2#8).toNat ∧
    Ready (holding (operands 0#16 (asElements [3#8, 15#8, 1#8]))) (operands 0#16 (asElements [3#8, 15#8, 1#8])) ∧ (1#8).toNat ≤ 1 :=
  ⟨ready_holding _ (by decide) (by decide), by decide, ready_holding _ (by decide) (by decide), by decide⟩

theorem witness_dmv :
    Ready (holding (operands 0#16 (asElements [0#8, 18#8, 0xFF#8, 0xFF#8]))) (operands 0#16 (asElements [0#8, 18#8, 0xFF#8, 0xFF#8])) :=
  ready_holding _ (by decide) (by decide)

theorem witness_dmvp :
    Ready (holding (operands 0#16 [1#16])) (operands 0#16 [1#16]) ∧ (operands 0#16 [1#16]).inLen ≠ 2#16 ∧
    Ready (holding (operands 0#16 [0x100#16, 0x100#16])) (operands 0#16 [0x100#16, 0x100#16]) ∧ 255 < (0x100#16).toNat ∧
    Ready (holding (operands 0#16 [0xFF#16, 0x100#16])) (operands 0#16 [0xFF#16, 0x100#16]) ∧ (0xFF#16).toNat ≤ 255 ∧
    Ready (holding (operands 0#16 [0xFF#16, 0xFF#16])) (operands 0#16 [0xFF#16, 0xFF#16]) :=
  ⟨ready_holding _ (by decide) (by decide), by decide, ready_holding _ (by decide) (by decide), by decide,
    ready_holding _ (by decide) (by decide), by decide, ready_holding _ (by decide) (by decide)⟩

/-- IN_LEN = CAP_IN + 1. -/
theorem witness_malformed :
    (holding ⟨0#16, 0#16, 1025#16, []⟩).pending = some ⟨0#16, 0#16, 1025#16, []⟩ ∧
    (holding ⟨0#16, 0#16, 1025#16, []⟩).params.capIn < (1025#16).toNat ∧ readsInput .frame = true ∧ readsInput .b2t = false ∧
    (exec .b2t (holding ⟨0#16, 0#16, 1025#16, []⟩) = .next (nextOf (exec .b2t (holding ⟨0#16, 0#16, 1025#16, []⟩)))) :=
  ⟨rfl, by decide, rfl, rfl, rfl⟩

/-- Two states that differ in what B2T does not read. -/
theorem witness_unused_operands :
    ∃ s u s' u' : State, ∃ q r : Snapshot, s.params = u.params ∧ s.pending = some q ∧ u.pending = some r ∧ q ≠ r ∧
      q.arg = r.arg ∧ exec .b2t s = .next s' ∧ exec .b2t u = .next u' :=
  ⟨holding (operands 1#16 []), holding (operands 1#16 [2#16]), _, _, operands 1#16 [], operands 1#16 [2#16],
    rfl, rfl, rfl, by decide, rfl, rfl, rfl⟩

/-- Two states with one snapshot and different histories. -/
theorem witness_equal_snapshots :
    ∃ s u : State, ∃ q : Snapshot, s.params = u.params ∧ s.pending = some q ∧ u.pending = some q ∧ s ≠ u :=
  ⟨holding (operands 1#16 []), { holding (operands 1#16 []) with res := 7#16 }, operands 1#16 [], rfl, rfl, rfl, by decide⟩

theorem witness_whole_result :
    paramsValid (holding (operands 0#16 [7#16])).params = true ∧
    (holding (operands 0#16 [7#16])).pending = some (operands 0#16 [7#16]) ∧
    SnapshotOk (holding (operands 0#16 [7#16])).params (operands 0#16 [7#16]) ∧
    exec .trim (holding (operands 0#16 [7#16])) = .next (nextOf (exec .trim (holding (operands 0#16 [7#16])))) :=
  ⟨by decide, rfl, (by unfold SnapshotOk; decide), rfl⟩

/-- A scalar other than 0 does come out, and a success of a scalar command. -/
theorem witness_scalar :
    ∃ t, exec .dled (holding (operands 0#16 [3#16, 15#16, 1#16])) = .next t ∧ t.res ≠ 0#16 ∧ t.status.err = false :=
  ⟨_, rfl, by decide, by decide⟩

theorem witness_decode_invalid_input :
    ∃ t, exec .decode (holding (operands 0#16 [0x100#16])) = .next t ∧ t.status.errCode = 7#4 := ⟨_, rfl, by decide⟩

theorem witness_accept : paramsValid State.reset.params = true ∧ State.reset.status.busy = false ∧
    0 < min ({ State.reset with inLen := 65535#16 }).inLen.toNat State.reset.params.capIn := by decide

/-- For the drop and for the writes while a command is pending. -/
theorem witness_busy : (holding (operands 1#16 [])).status.busy = true ∧
    (holding (operands 1#16 [])).pending = some (operands 1#16 []) ∧
    exec .b2t (holding (operands 1#16 [])) = .next (nextOf (exec .b2t (holding (operands 1#16 [])))) :=
  ⟨rfl, rfl, rfl⟩

theorem witness_host_access :
    ∃ s : State, ∃ t : HostTask, ∃ ts : List HostTask, s.script = t :: ts ∧ t ≠ .reset :=
  ⟨{ State.reset with script := [.stmt (.issue .catSer)] }, _, _, rfl, by decide⟩

/-- An error report stands, and the codec is idle; and one stands while a read or an operand write comes. -/
theorem witness_error_report :
    ∃ s : State, s.status.err = true ∧ s.status.busy = false ∧ ¬ ((0x0001#16 : Word) = 0x0000#16 ∧ s.status.busy = false) :=
  ⟨nextOf (exec .send (holding (operands 0#16 []))), by decide, by decide, by decide⟩

/-- Boundary addresses of each clause of the reserved and read-only regions. -/
theorem witness_reserved :
    paramsValid State.reset.params = true ∧ 0x0007 ≤ (0x0007#16).toNat ∧ (0x0FFF#16).toNat ≤ 0x0FFF ∧
    0x1000 + State.reset.params.capIn ≤ (0x1400#16).toNat ∧ (0x3FFF#16).toNat ≤ 0x3FFF ∧
    0x4000 + State.reset.params.capOut ≤ (0x4C06#16).toNat ∧ 0x0003 ≤ (0x0003#16).toNat ∧ 0x4000 ≤ (0x4000#16).toNat := by decide

/-- ARG, IN_LEN, the first and the last entry of IN. -/
theorem witness_operand_writes :
    paramsValid State.reset.params = true ∧ State.reset.inBuf.wf = true ∧
    (0x1000 ≤ (0x1000#16).toNat ∧ (0x1000#16).toNat < 0x1000 + State.reset.params.capIn) ∧
    (0x1000 ≤ (0x13FF#16).toNat ∧ (0x13FF#16).toNat < 0x1000 + State.reset.params.capIn) ∧
    (0x13FF#16 : Word) ≠ 0x0000#16 ∧ (0x1000#16 : Word) ≠ 0x13FF#16 := by decide

theorem witness_reset_event :
    ∃ s : State, ∃ ts : List HostTask, s.script = .reset :: ts ∧ s.pending.isSome = true :=
  ⟨{ holding (operands 0#16 []) with script := [.reset] }, [], rfl, rfl⟩

/-- A state that meets the invariant, with a command pending and something left to do. -/
def busyState : State :=
  { holding ⟨0x000B#16, 0#16, 0#16, []⟩ with script := [.stmt .wait], turns := [.host, .host] }

theorem busyState_inv : StateInv busyState where
  params := by decide
  inWf := rfl
  inBound := fun _ _ => rfl
  outWf := rfl
  outFits := by decide
  outZero := fun _ _ => rfl
  outByte := fun i => by show (0#16).toNat ≤ 255; decide
  status := .inr (.inl ⟨rfl, rfl, rfl, rfl⟩)
  busy := rfl
  snapshot := by rintro q ⟨⟩; exact ⟨rfl, by unfold SnapshotOk; decide⟩
  okCtx := by simp [busyState, holding]
  errRes := by simp [busyState, holding]
  fresh := by simp [busyState, holding]

theorem witness_invariant_step : ∃ s t, StateInv s ∧ step s = .next t := ⟨busyState, _, busyState_inv, rfl⟩

theorem witness_decoded_step :
    paramsValid (holding ⟨0x002B#16, 0#16, 0#16, []⟩).params = true ∧
    nextAgent (holding ⟨0x002B#16, 0#16, 0#16, []⟩) = some .codec ∧
    (holding ⟨0x002B#16, 0#16, 0#16, []⟩).pending = some ⟨0x002B#16, 0#16, 0#16, []⟩ ∧ decodeWord 0x002B#16 = .ok .catLed := by decide

theorem witness_bad_parameters :
    paramsValid ({ State.reset with params := { vectorParams with capIn := 0 } }).params = false := by decide

/-- For the eventual commit and for WAIT (k = 2). -/
theorem witness_wait : StateInv busyState ∧ paramsValid busyState.params = true ∧ busyState.status.busy = true ∧
    busyState.pending.isSome = true ∧ busyState.turns = List.replicate 2 .host ∧ busyState.script = [.stmt .wait] :=
  ⟨busyState_inv, by decide, rfl, rfl, rfl, rfl⟩

/-- Both ends of a pending command do come: the commit at once, and the reset event before it. -/
theorem witness_pending_ends :
    (∃ t, step { busyState with turns := [] } = .next t ∧ t.status.done = true ∧ t.outLen = 12#16) ∧
    (∃ t, step { busyState with script := [.reset] } = .next t ∧ t.status = Status.zero ∧ t.pending = none) :=
  ⟨⟨_, rfl, by decide, by decide⟩, _, rfl, by decide, by decide⟩

theorem witness_grouping : [1#8, 2#8, 3#8].length % 3 = 0 := by decide

/-- A payload of one byte is framed. -/
theorem witness_frame_success :
    ∃ s t q, Ready s q ∧ exec .frame s = .next t ∧ t.status.err = false :=
  ⟨holding (operands 0#16 [1#16]), nextOf (exec .frame (holding (operands 0#16 [1#16]))), operands 0#16 [1#16],
    ready_holding _ (by decide) (by decide), rfl, by decide⟩

/-- The same bytes as one frame or as two. -/
theorem witness_send_bytes :
    ∃ s u s' u' : State, ∃ q r : Snapshot, s.params = u.params ∧ s.pending = some q ∧ u.pending = some r ∧
      q.inLen = r.inLen ∧ q.input = r.input ∧ q.arg ≠ r.arg ∧ (q.arg = 0#16 ↔ r.arg = 0#16) ∧
      exec .send s = .next s' ∧ exec .send u = .next u' :=
  ⟨holding (operands 1#16 [1#16, 1#16]), holding (operands 2#16 [1#16, 1#16]), _, _, operands 1#16 [1#16, 1#16],
    operands 2#16 [1#16, 1#16], rfl, rfl, rfl, rfl, rfl, by decide, by decide, rfl, rfl⟩

/-- The same note triplet with and without its markers. -/
theorem witness_control_triplets :
    Ready (holding (operands 0#16 (asElements (flat threeTriplets)))) (operands 0#16 (asElements (flat threeTriplets))) ∧
    Ready (holding (operands 0#16 (asElements (flat [⟨0x90#8, 15#8, 15#8⟩])))) (operands 0#16 (asElements (flat [⟨0x90#8, 15#8, 15#8⟩]))) ∧
    LegalTriplets vectorParams threeTriplets ∧ LegalTriplets vectorParams [⟨0x90#8, 15#8, 15#8⟩] ∧
    threeTriplets.filter (fun t => !isControl vectorParams t) =
      [⟨0x90#8, 15#8, 15#8⟩].filter (fun t => !isControl vectorParams t) :=
  ⟨ready_holding _ (by decide) (by decide), ready_holding _ (by decide) (by decide), threeTriplets_legal,
    by simp [LegalTriplets, NoteTriplet, vectorParams], by decide⟩

theorem witness_single_triplet :
    Ready (holding (operands 0#16 (asElements (transportOf vectorParams [0x2E#8]))))
      (operands 0#16 (asElements (transportOf vectorParams [0x2E#8]))) :=
  ready_holding _ (by decide) (by decide)

/-- FE23 and FD23: two frames. -/
theorem witness_multi_frame :
    ∃ s1 t1 s2 : State, ∃ q1 q2 : Snapshot, Ready s1 q1 ∧ Ready s2 q2 ∧ s2.params = s1.params ∧
      (∀ f ∈ [2#8, 8#8] :: [[2#8, 15#8]], ∃ rest, f = BitVec.ofNat 8 f.length :: rest ∧ f.length ≤ 255) ∧
      q1.input = asElements ([2#8, 8#8] :: [[2#8, 15#8]]).flatten ∧ q1.arg = BitVec.ofNat 16 (1 + 1) ∧ q1.arg ≠ 0#16 ∧
      exec .send s1 = .next t1 ∧ q2.input = outWords t1 := by
  refine ⟨holding (operands 2#16 [2#16, 8#16, 2#16, 15#16]),
    nextOf (exec .send (holding (operands 2#16 [2#16, 8#16, 2#16, 15#16]))),
    holding (operands 0#16 (outWords (nextOf (exec .send (holding (operands 2#16 [2#16, 8#16, 2#16, 15#16])))))),
    operands 2#16 [2#16, 8#16, 2#16, 15#16],
    operands 0#16 (outWords (nextOf (exec .send (holding (operands 2#16 [2#16, 8#16, 2#16, 15#16]))))),
    ready_holding _ (by decide) (by decide), ready_holding _ (by decide) (by decide), rfl, ?_, by decide, rfl, by decide,
    rfl, rfl⟩
  intro f hf
  simp only [List.mem_cons, List.not_mem_nil, or_false] at hf
  rcases hf with rfl | rfl
  · exact ⟨[8#8], by decide, by decide⟩
  · exact ⟨[15#8], by decide, by decide⟩

/-- FRAME of [1], then SEND of its frame, then DECODE of that sequence. -/
def framed : State := nextOf (exec .frame (holding (operands 0#16 [1#16])))

/-- The sequence SEND makes of `framed`'s result. -/
def sent : State := nextOf (exec .send (holding (operands 1#16 (outWords framed))))

theorem witness_round_trip :
    Ready (holding (operands 0#16 [1#16])) (operands 0#16 [1#16]) ∧
    Ready (holding (operands 1#16 (outWords framed))) (operands 1#16 (outWords framed)) ∧
    Ready (holding (operands 0#16 (outWords sent))) (operands 0#16 (outWords sent)) ∧
    (operands 0#16 [1#16]).input = asElements [1#8] ∧ exec .frame (holding (operands 0#16 [1#16])) = .next framed ∧
    exec .send (holding (operands 1#16 (outWords framed))) = .next sent :=
  ⟨ready_holding _ (by decide) (by decide), ready_holding _ (by decide) (by decide), ready_holding _ (by decide) (by decide),
    by decide, rfl, rfl⟩

/-- mv = 65535 both ways. -/
theorem witness_millivolts :
    (∃ s1 t1 s2 : State, ∃ q1 q2 : Snapshot, s1.pending = some q1 ∧ Ready s2 q2 ∧ exec .emv s1 = .next t1 ∧
      q2.input = outWords t1) ∧
    (∃ s1 t1 s2 : State, ∃ q1 q2 : Snapshot, Ready s1 q1 ∧ q1.input = asElements [0xFF#8, 0xFF#8] ∧
      exec .dmvp s1 = .next t1 ∧ s2.pending = some q2 ∧ q2.arg = t1.res) :=
  ⟨⟨holding (operands 65535#16 []), nextOf (exec .emv (holding (operands 65535#16 []))),
      holding (operands 0#16 (outWords (nextOf (exec .emv (holding (operands 65535#16 [])))))), operands 65535#16 [],
      operands 0#16 (outWords (nextOf (exec .emv (holding (operands 65535#16 []))))), rfl,
      ready_holding _ (by decide) (by decide), rfl, rfl⟩,
    ⟨holding (operands 0#16 [0xFF#16, 0xFF#16]), nextOf (exec .dmvp (holding (operands 0#16 [0xFF#16, 0xFF#16]))),
      holding (operands 65535#16 []), operands 0#16 [0xFF#16, 0xFF#16], operands 65535#16 [],
      ready_holding _ (by decide) (by decide), by decide, rfl, rfl, by decide⟩⟩

theorem witness_ldin :
    ∃ s : State, ∃ items : List LoadItem, paramsValid s.params = true ∧ s.inBuf.wf = true ∧ s.pending = none ∧ s.turns = [] ∧
      s.script = [.stmt (.ldin items)] ∧ loadWords s.params items = [0xB0#16, 0x70#16, 0#16, 0x90#16, 7#16] ∧
      (loadWords s.params items).length ≤ s.params.capIn :=
  ⟨{ State.reset with script := [.stmt (.ldin [.start, .value .note, .value (.lit 7#16)])] },
    [.start, .value .note, .value (.lit 7#16)], by decide, rfl, rfl, rfl, rfl, by decide, by decide⟩

theorem witness_out2in :
    ∃ s : State, paramsValid s.params = true ∧ s.inBuf.wf = true ∧ s.pending = none ∧ s.turns = [] ∧
      s.script = [.stmt .out2in] ∧ s.outLen.toNat = 2 ∧ s.outLen.toNat ≤ s.params.capIn :=
  ⟨{ framed with script := [.stmt .out2in] }, by decide, by decide, by decide, by decide, rfl, by decide, by decide⟩

end Sys2Proof.Tests
end

/-! PROOF. The model's check of a parameter set against the words of 00_scope.md R7 and R8 (O40). -/

namespace Sys2Proof.Machine

/-- R7's form of a note triplet: `(P_NOTE_STATUS, h, l)` for some h and l in 0..15. -/
theorem noteTriplet_iff_exists_nibbles (p : Params) (t : Triplet) :
    NoteTriplet p t ↔
      ∃ h l : Nat, h ≤ 15 ∧ l ≤ 15 ∧ t = ⟨p.noteStatus, BitVec.ofNat 8 h, BitVec.ofNat 8 l⟩ := by
  constructor
  · rintro ⟨hstatus, hhigh, hlow⟩
    exact ⟨t.data1.toNat, t.data2.toNat, hhigh, hlow, by simp [← hstatus]⟩
  · rintro ⟨h, l, hh, hl, rfl⟩
    refine ⟨rfl, ?_, ?_⟩ <;> simp only [BitVec.toNat_ofNat] <;> omega

/-- The model's test of the two markers is the constraint that R7 quantifies over h and l. -/
theorem outOfBand_iff (p : Params) :
    outOfBand p = true ↔
      ∀ h l : Nat, h ≤ 15 → l ≤ 15 →
        p.start ≠ ⟨p.noteStatus, BitVec.ofNat 8 h, BitVec.ofNat 8 l⟩ ∧
        p.stop ≠ ⟨p.noteStatus, BitVec.ofNat 8 h, BitVec.ofNat 8 l⟩ := by
  have hnot : outOfBand p = true ↔ ¬ NoteTriplet p p.start ∧ ¬ NoteTriplet p p.stop := by
    simp [outOfBand, ← isNote_iff]
  rw [hnot, noteTriplet_iff_exists_nibbles, noteTriplet_iff_exists_nibbles]
  constructor
  · rintro ⟨hstart, hstop⟩ h l hh hl
    exact ⟨fun heq => hstart ⟨h, l, hh, hl, heq⟩, fun heq => hstop ⟨h, l, hh, hl, heq⟩⟩
  · intro hall
    exact ⟨fun ⟨h, l, hh, hl, heq⟩ => (hall h l hh hl).1 heq, fun ⟨h, l, hh, hl, heq⟩ => (hall h l hh hl).2 heq⟩

/-- The four bounds of R8. -/
theorem capacitiesOk_iff (p : Params) :
    capacitiesOk p = true ↔
      771 ≤ p.capIn ∧ p.capIn ≤ 12288 ∧ 3 * p.capIn + 6 ≤ p.capOut ∧ p.capOut ≤ 49152 := by
  simp [capacitiesOk, and_assoc]

theorem paramsValid_iff (p : Params) : paramsValid p = true ↔ outOfBand p = true ∧ capacitiesOk p = true := by
  simp [paramsValid]

/-- Settles O40: the check is R7's constraint with R8's bounds, `step` begins with that check, and the parameters of the
spec's vectors with END set to START pass it. -/
theorem badParametersAreRefused : Obligations.BadParametersAreRefused := by
  unfold Obligations.BadParametersAreRefused
  refine ⟨fun p => ?check, fun s hbad => step_invalid hbad, ?equalMarkers⟩
  case check => rw [paramsValid_iff, outOfBand_iff, capacitiesOk_iff]
  case equalMarkers => exact ⟨{ vectorParams with stop := vectorParams.start }, rfl, by decide⟩

end Sys2Proof.Machine

/-! PROOF. What the operations can answer: how long a result is and which results hold a scalar (10_state.md R28,
20_memory.md R56), one rule for each way an operation is built; and what a commit makes of a result (R33, R34). -/

namespace Sys2Proof.Machine

/-- A success of at most `outMost` bytes, with RES 0 where the operation returns no scalar; or an error whose message has
at most `msgMost` bytes. -/
def ResultWithin (outMost msgMost : Nat) (scalar : Bool) : Result → Prop
  | .ok r => r.out.length ≤ outMost ∧ (scalar = false → r.res = 0#16)
  | .error f => f.msg.length ≤ msgMost

/-- The bytes a result writes to OUT: a success's list, an error's message (R33). -/
def resultBytes : Result → List Byte
  | .ok r => r.out
  | .error f => f.msg

/-- The commands that return a scalar in RES (R28, 30_encoding.md R86). -/
def isScalar (i : Instr) : Bool := decide (i = .dled ∨ i = .dmv ∨ i = .dmvp)

section Rules

variable {outMost msgMost : Nat} {scalar : Bool}

@[simp] theorem resultWithin_ok {r : Success} :
    ResultWithin outMost msgMost scalar (.ok r) ↔ r.out.length ≤ outMost ∧ (scalar = false → r.res = 0#16) := Iff.rfl

@[simp] theorem resultWithin_error {f : Failure} :
    ResultWithin outMost msgMost scalar (.error f) ↔ f.msg.length ≤ msgMost := Iff.rfl

@[simp] theorem resultWithin_succeed {out : List Byte} {res : Word} :
    ResultWithin outMost msgMost scalar (succeed out res) ↔ out.length ≤ outMost ∧ (scalar = false → res = 0#16) := Iff.rfl

theorem ResultWithin.mono {outMost' msgMost' : Nat} {r : Result} (h : ResultWithin outMost msgMost scalar r)
    (hout : outMost ≤ outMost') (hmsg : msgMost ≤ msgMost') : ResultWithin outMost' msgMost' scalar r := by
  cases r with
  | ok v => exact ⟨Nat.le_trans h.1 hout, h.2⟩
  | error f => exact Nat.le_trans h hmsg

/-- A check: its error carries the message given, and past it the condition is known not to hold. -/
theorem ResultWithin.raiseIf_bind {c : Bool} {code : ErrorCode} {ctx : Word} {msg : List Byte} {k : Unit → Result}
    (hmsg : msg.length ≤ msgMost) (hk : c = false → ResultWithin outMost msgMost scalar (k ())) :
    ResultWithin outMost msgMost scalar (raiseIf c code ctx msg >>= k) := by
  cases c with
  | true => simpa using hmsg
  | false => simpa using hk rfl

/-- The byte check: its error carries no message, and past it the operands are bytes. -/
theorem ResultWithin.bytesOf_bind {xs : List Word} {k : List Byte → Result}
    (hk : ∀ bs, xs = asElements bs → ResultWithin outMost msgMost scalar (k bs)) :
    ResultWithin outMost msgMost scalar (bytesOf xs >>= k) := by
  rcases bytes_or_firstNonByte xs with ⟨bs, hbs⟩ | ⟨j, hj⟩
  · simpa [hbs, bytesOf_asElements] using hk bs hbs
  · simp [bytesOf_firstNonByte hj]

/-- The message check (42_field_codec.md R160): its error carries at most the message, and past it the message has the
expected length. -/
theorem ResultWithin.checkMsg_bind {xs : List Word} {len : Nat} {command : Byte} {k : List Byte → Result}
    (hxs : xs.length ≤ msgMost)
    (hk : ∀ m, xs = asElements m → m.length = len → ResultWithin outMost msgMost scalar (k m)) :
    ResultWithin outMost msgMost scalar (checkMsg xs len command >>= k) := by
  rcases bytes_or_firstNonByte xs with ⟨m, rfl⟩ | ⟨j, hj⟩
  case inr => simp [checkMsg_nonByte hj]
  rw [asElements_length] at hxs
  by_cases hlen : m.length = len
  · by_cases hcmd : m.getD 1 0#8 = command
    · simpa [checkMsg_passes hlen hcmd] using hk m rfl hlen
    · simpa [checkMsg_command hlen hcmd] using hxs
  · simpa [checkMsg_length hlen] using hxs

/-- The serial check (R161): its error carries the whole message. -/
theorem ResultWithin.checkAscii_bind {m : List Byte} (hm : m.length ≤ msgMost) (j : Nat) (bs : List Byte)
    {k : Unit → Result} (hk : ResultWithin outMost msgMost scalar (k ())) :
    ResultWithin outMost msgMost scalar (checkAscii m j bs >>= k) := by
  induction bs generalizing j with
  | nil => exact hk
  | cons b bs ih =>
    simp only [checkAscii, bind_assoc]
    exact raiseIf_bind hm fun _ => ih (j + 1)

/-- R204's check of IN_LEN: its error carries no message. -/
theorem ResultWithin.withInput_intro {p : Params} {q : Snapshot} {op : List Word → Result}
    (h : ResultWithin outMost msgMost scalar (op q.input)) :
    ResultWithin outMost msgMost scalar (withInput p q op) :=
  raiseIf_bind (Nat.zero_le _) fun _ => h

/-- R204's further check for DMVP: its error carries no message either. -/
theorem ResultWithin.withTwoInputs_intro {p : Params} {q : Snapshot} {op : List Word → Result}
    (h : ResultWithin outMost msgMost scalar (op q.input)) :
    ResultWithin outMost msgMost scalar (withTwoInputs p q op) := by
  refine withInput_intro ?_
  exact raiseIf_bind (Nat.zero_le _) fun _ => h

end Rules

/-- Grouping by three loses no element of a list of whole triplets (40_frame_encoder.md R101). -/
theorem flat_group3 {es : List Byte} (h : es.length % 3 = 0) : flat (group3 es) = es := by
  induction es using group3.induct with
  | case1 a b c rest ih =>
    have hrest : rest.length % 3 = 0 := by simp only [List.length_cons] at h; omega
    simpa [group3, flat, Triplet.fields] using ih hrest
  | case2 es hshort =>
    match es, h, hshort with
    | [], _, _ => rfl
    | a :: b :: c :: rest, _, hshort => exact absurd rfl (hshort a b c rest)

theorem prepareFrame_within (unordered : Bool) (xs : List Word) :
    ResultWithin 255 xs.length false (prepareFrame unordered xs) := by
  refine .raiseIf_bind (Nat.zero_le _) fun _ => .raiseIf_bind (Nat.zero_le _) fun hshort => ?_
  refine .bytesOf_bind fun bs hbs => ?_
  subst hbs
  have hlen : bs.length ≤ 254 := by simpa [maxPayload] using hshort
  simp only [resultWithin_succeed, frameOf, List.length_cons, implies_true, and_true]
  omega

theorem byteToTriplet_within (p : Params) (arg : Word) (n : Nat) : ResultWithin 3 n false (byteToTriplet p arg) := by
  simp only [byteToTriplet, byteOfArg, bind_assoc]
  exact .raiseIf_bind (Nat.zero_le _) fun _ => by simp [noteFlat, Triplet.fields]

theorem prepareForSending_within (p : Params) (frames : Word) (xs : List Word) :
    ResultWithin (3 * (xs.length + 2)) xs.length false (prepareForSending p frames xs) := by
  refine .raiseIf_bind (Nat.zero_le _) fun _ => .bytesOf_bind fun bs hbs => .raiseIf_bind (Nat.zero_le _) fun _ => ?_
  simp [hbs, wrapStream_preTransport, transportOf_length]

theorem reassemble_within (p : Params) (xs : List Word) :
    ResultWithin xs.length xs.length false (reassemble p xs) := by
  rcases bytes_or_firstNonByte xs with ⟨es, rfl⟩ | ⟨k, hk⟩
  case inr => simp [reassemble_nonByte p hk]
  by_cases hmod : es.length % 3 = 0
  case neg => simp [reassemble_truncated p hmod]
  rw [← flat_group3 hmod]
  rcases legal_or_bad p (group3 es) with hlegal | ⟨j, hbad⟩
  · have hcarried := carriedBytes_length p (group3 es)
    simp only [reassemble_legal hlegal, resultWithin_succeed, asElements_length, flat_length, implies_true, and_true]
    omega
  · simp [reassemble_badTriplet hbad]

theorem validateAndTrim_within (xs : List Word) : ResultWithin xs.length xs.length false (validateAndTrim xs) := by
  refine .bytesOf_bind fun bs hbs => ?_
  subst hbs
  cases bs with
  | nil => simp
  | cons len bs => exact .raiseIf_bind (by simp) fun _ => by simp

theorem reassembleAndTrim_within (p : Params) (xs : List Word) :
    ResultWithin xs.length xs.length false (reassembleAndTrim p xs) := by
  have hreasm := reassemble_within p xs
  unfold reassembleAndTrim
  cases hr : reassemble p xs with
  | error f => simpa [hr] using hreasm
  | ok r =>
    have hlen : (r.out.map zext16).length ≤ xs.length := by simpa using (hr ▸ hreasm).1
    exact (validateAndTrim_within _).mono hlen hlen

theorem decodeSerialNumber_within (xs : List Word) : ResultWithin 8 xs.length false (decodeSerialNumber xs) := by
  refine .checkMsg_bind le_rfl fun m hm hlen => .checkAscii_bind (by simp [hm]) _ _ ?_
  simp [hlen, lenSerial]

theorem decodeLedState_within (xs : List Word) : ResultWithin 0 xs.length true (decodeLedState xs) := by
  refine .checkMsg_bind le_rfl fun m hm _ => .raiseIf_bind (by simp [hm]) fun _ => ?_
  simp

theorem getMillivolts_within (xs : List Word) : ResultWithin 0 xs.length true (getMillivolts xs) :=
  .checkMsg_bind le_rfl fun _ _ _ => by simp

theorem decodeMillivolts_within (xs : List Word) : ResultWithin 0 xs.length true (decodeMillivolts xs) :=
  .bytesOf_bind fun _ _ => by simp

theorem catalog_length (p : Params) (commandId : Byte) : (catalog p commandId).length = 12 := by
  simp [catalog, wrapStream_preTransport, transportOf_length, frameOf]

/-- R56's table and R28 for every instruction, with the number of elements of IN in place of CAP_IN: a message is never
longer than the list it is taken from. -/
theorem resultOf_within (i : Instr) (p : Params) (q : Snapshot) :
    ResultWithin (largestOutput { p with capIn := q.input.length } i) q.input.length (isScalar i) (resultOf i p q) := by
  cases i with
  | frame => exact .withInput_intro (prepareFrame_within false _)
  | frameU => exact .withInput_intro (prepareFrame_within true _)
  | b2t => exact byteToTriplet_within p q.arg _
  | send => exact .withInput_intro (prepareForSending_within p q.arg _)
  | reasm => exact .withInput_intro (reassemble_within p _)
  | trim => exact .withInput_intro (validateAndTrim_within _)
  | decode => exact .withInput_intro (reassembleAndTrim_within p _)
  | dser => exact .withInput_intro (decodeSerialNumber_within _)
  | dled => exact .withInput_intro (decodeLedState_within _)
  | dmv => exact .withInput_intro (getMillivolts_within _)
  | emv => simp [resultOf, encodeMillivolts, largestOutput]
  | dmvp => exact .withTwoInputs_intro (decodeMillivolts_within _)
  | catSer => simp [resultOf, catalog_length, largestOutput]
  | catVolt => simp [resultOf, catalog_length, largestOutput]
  | catLed => simp [resultOf, catalog_length, largestOutput]

/-- More elements allow no shorter output. -/
theorem largestOutput_mono {p : Params} {n : Nat} (h : n ≤ p.capIn) (i : Instr) :
    largestOutput { p with capIn := n } i ≤ largestOutput p i := by
  cases i <;> simp only [largestOutput] <;> omega

/-- R8's bound on CAP_OUT has room for every row of R56's table. -/
theorem largestOutput_le_capOut {p : Params} (h : paramsValid p = true) (i : Instr) : largestOutput p i ≤ p.capOut := by
  have hcap := capacities_of_valid h
  cases i <;> simp only [largestOutput] <;> omega

theorem SnapshotOk.input_length_le {p : Params} {q : Snapshot} (h : SnapshotOk p q) : q.input.length ≤ p.capIn :=
  Nat.le_trans (Nat.le_of_eq h) (Nat.min_le_right _ _)

/-- R56: every result, the message of an error included, fits in OUT. -/
theorem resultOf_fits {p : Params} {q : Snapshot} (hp : paramsValid p = true) (hq : SnapshotOk p q) (i : Instr) :
    (resultBytes (resultOf i p q)).length ≤ p.capOut := by
  have hcap := capacities_of_valid hp
  have hin := hq.input_length_le
  have hwithin := resultOf_within i p q
  cases hr : resultOf i p q with
  | ok r => exact Nat.le_trans (resultWithin_ok.mp (hr ▸ hwithin)).1 (Nat.le_trans (largestOutput_mono hin i) (largestOutput_le_capOut hp i))
  | error f =>
    have hmsg : f.msg.length ≤ q.input.length := resultWithin_error.mp (hr ▸ hwithin)
    simp only [resultBytes]
    omega

/-- The model has the codes 1 to 12 only (60_exceptions.md R200, R201). -/
theorem code_bounds (c : ErrorCode) : 1 ≤ c.code.toNat ∧ c.code.toNat ≤ 12 := by cases c <;> decide

/-- A commit writes the result registers from the result alone, whatever they held (R34). -/
theorem commit_sameResult (s u : State) (r : Result) : SameResult (commit s r) (commit u r) := by
  cases r <;> constructor <;> intros <;> rfl

theorem commit_cmd (s : State) (r : Result) : (commit s r).cmd = s.cmd := by cases r <;> rfl

/-- Settles O22: the one result is `resultOf`'s, and its length is exact in OUT_LEN because it fits in OUT. -/
theorem everyCommitIsOneWholeResult : Obligations.EveryCommitIsOneWholeResult := by
  unfold Obligations.EveryCommitIsOneWholeResult
  intro i s q hparams hpending hsnapshot
  have hcap := capacities_of_valid hparams
  have hfits := resultOf_fits hparams hsnapshot i
  cases hr : resultOf i s.params q with
  | ok r =>
    rw [hr, resultBytes] at hfits
    exact .inl ⟨r.out, r.res, commitsOk_of_result hpending hr (by omega)⟩
  | error f =>
    rw [hr, resultBytes] at hfits
    obtain ⟨hlow, hhigh⟩ := code_bounds f.code
    exact .inr ⟨f.code.code, f.ctx, f.msg, hlow, hhigh, commitsErr_of_result hpending hr (by omega)⟩

/-- Settles O23, from the table of what each instruction can answer. -/
theorem scalarsOnlyFromTheScalarCommands : Obligations.ScalarsOnlyFromTheScalarCommands := by
  unfold Obligations.ScalarsOnlyFromTheScalarCommands
  intro i s t hexec
  obtain ⟨q, -, rfl⟩ := exec_next hexec
  have hwithin := resultOf_within i s.params q
  cases hr : resultOf i s.params q with
  | error f => exact ⟨fun hres => absurd rfl hres, fun herr => by simp [statusOnErr] at herr⟩
  | ok r =>
    obtain ⟨hlen, hres⟩ := resultWithin_ok.mp (hr ▸ hwithin)
    constructor
    · intro hne
      by_contra hlist
      exact hne (hres (by simpa [isScalar] using hlist))
    · intro _ hscalar
      have hzero : r.out.length = 0 := by
        rcases hscalar with rfl | rfl | rfl <;> simpa [largestOutput] using hlen
      simp [hzero, lenWord]

/-- Settles O21: both commits are of the same result. -/
theorem equalSnapshotsGiveEqualResults : Obligations.EqualSnapshotsGiveEqualResults := by
  unfold Obligations.EqualSnapshotsGiveEqualResults
  intro i s u q hparams hs hu
  exact ⟨_, _, exec_pending hs, exec_pending hu, hparams ▸ commit_sameResult s u _⟩

end Sys2Proof.Machine

/-! PROOF. The transaction and the register space one access at a time: accept, drop and the codec's turn (10_state.md R30
to R34), what a host access leaves alone (R236), and the word an operand write stores (20_memory.md R50, R54). -/

namespace Sys2Proof.Machine

/-- A write to CMD while BUSY = 0 is the accept, at its address (R21, R30). -/
theorem memWrite_cmd_idle {s : State} (h : s.status.busy = false) (v : Word) : memWrite s 0x0000#16 v = accept s v := by
  simp [memWrite, writeCmd, h]

/-- A write to CMD while BUSY = 1 is the drop, at its address (R21, R32). -/
theorem memWrite_cmd_busy {s : State} (h : s.status.busy = true) (v : Word) : memWrite s 0x0000#16 v = dropWrite s := by
  simp [memWrite, writeCmd, h]

/-- The word at IN[i] is what a read of its address returns. -/
theorem memRead_inEntry {s : State} (h : paramsValid s.params = true) {i : Nat} (hi : i < s.params.capIn) :
    memRead s (regAddr (.inEntry i)) = s.inBuf.read i := by
  simp [memRead, regAt_inEntry h hi]

theorem takeSnapshot_input_length (s : State) (v : Word) :
    (takeSnapshot s v).input.length = min s.inLen.toNat s.params.capIn := by
  simp [takeSnapshot]

/-- The snapshot's element `i` is IN[i] (R31). -/
theorem takeSnapshot_input_getD (s : State) (v : Word) {i : Nat} (hi : i < min s.inLen.toNat s.params.capIn) :
    (takeSnapshot s v).input.getD i 0#16 = s.inBuf.read i := by
  simp [takeSnapshot, List.getD_eq_getElem?_getD, List.getElem?_range hi]

/-- Settles O26: an idle codec's CMD write is the accept, and its snapshot holds the words read at IN. -/
theorem acceptTakesTheSnapshot : Obligations.AcceptTakesTheSnapshot := by
  unfold Obligations.AcceptTakesTheSnapshot
  intro s v hparams hidle
  refine ⟨takeSnapshot s v, memWrite_cmd_idle hidle v, rfl, rfl, rfl, takeSnapshot_input_length s v, fun i hi => ?_⟩
  rw [takeSnapshot_input_getD s v hi]
  exact (memRead_inEntry hparams (Nat.lt_of_lt_of_le hi (Nat.min_le_right _ _))).symm

/-- Settles O27: a drop leaves the parameters and the pending snapshot, so the same result is committed. -/
theorem droppedWriteLeavesOnlyDrop : Obligations.DroppedWriteLeavesOnlyDrop := by
  unfold Obligations.DroppedWriteLeavesOnlyDrop
  intro s v hbusy
  rw [memWrite_cmd_busy hbusy]
  refine ⟨by rw [dropWrite, statusOnDrop, hbusy], fun i t u ht hu => ?_⟩
  obtain ⟨q, hq, rfl⟩ := exec_next ht
  obtain rfl : commit (dropWrite s) (resultOf i s.params q) = u := by
    simpa [exec_pending (s := dropWrite s) hq] using hu
  exact ⟨commit_sameResult s (dropWrite s) _, commit_cmd (dropWrite s) _⟩

/-- Settles O39: the codec's turn is `codecStep`, which runs the decoded word. -/
theorem stepRunsTheDecodedInstruction : Obligations.StepRunsTheDecodedInstruction := by
  unfold Obligations.StepRunsTheDecodedInstruction
  intro s q i hparams hturn hpending hdecode
  calc step s = agentStep s := step_valid hparams
    _ = codecStep (takeTurn s) := agentStep_codec hturn
    _ = exec i (takeTurn s) := codecStep_ok (s := takeTurn s) hpending hdecode

/-- No write changes a result register: CMD's writes leave them (R30, R32), and their own addresses are read-only (20_memory.md
R52). -/
theorem memWrite_resultRegisters (s : State) (a v : Word) :
    (memWrite s a v).outLen = s.outLen ∧ (memWrite s a v).outBuf = s.outBuf ∧
    (memWrite s a v).res = s.res ∧ (memWrite s a v).errCtx = s.errCtx := by
  rcases memWrite_cases s a v with ⟨-, -, h⟩ | ⟨-, -, h⟩ | ⟨-, h⟩ | ⟨-, h⟩ | ⟨i, -, -, h⟩ | h <;> rw [h] <;>
    exact ⟨rfl, rfl, rfl, rfl⟩

/-- No access changes a result register. -/
theorem doAccess_resultRegisters (s : State) (a : Access) :
    (doAccess s (some a)).outLen = s.outLen ∧ (doAccess s (some a)).outBuf = s.outBuf ∧
    (doAccess s (some a)).res = s.res ∧ (doAccess s (some a)).errCtx = s.errCtx := by
  cases a with
  | read a => exact ⟨rfl, rfl, rfl, rfl⟩
  | write a v => exact memWrite_resultRegisters s a v

/-- Settles O29: every task but the reset event makes an access, which leaves the four registers. -/
theorem hostAccessesKeepTheResult : Obligations.HostAccessesKeepTheResult := by
  unfold Obligations.HostAccessesKeepTheResult
  intro s t ts hscript hreset
  rw [hostStep_cons hscript]
  cases ha : taskAccess s.params t with
  | none => exact absurd (taskAccess_eq_none ha) hreset
  | some a =>
    obtain ⟨houtLen, houtBuf, hres, herrCtx⟩ := doAccess_resultRegisters s a
    exact ⟨houtLen, fun i => by rw [setScript_outBuf, houtBuf], hres, herrCtx⟩

/-- The value of a register or entry; an address names none. -/
def regValue (s : State) : RegName → Word
  | .cmd => s.cmd
  | .arg => s.arg
  | .inLen => s.inLen
  | .status => statusWord s.status
  | .outLen => s.outLen
  | .res => s.res
  | .errCtx => s.errCtx
  | .inEntry i => s.inBuf.read i
  | .outEntry i => s.outBuf.read i
  | .address _ => 0#16

/-- A read returns the value of what the map has at the address, and 0 where it has nothing (20_memory.md R50, R51). -/
theorem memRead_eq_regValue (s : State) (a : Word) : memRead s a = ((regAt s.params a).map (regValue s)).getD 0#16 := by
  cases h : regAt s.params a with
  | none => simp [memRead, h]
  | some r => cases r <;> simp [memRead, h, regValue]

/-- The map has a register at its own address only. -/
theorem eq_regAddr_of_regAt {p : Params} {a : Word} {r : RegName} (h : regAt p a = some r) : a = regAddr r := by
  have entryAddr {base i : Nat} (ha : a.toNat = base + i) : a = BitVec.ofNat 16 (base + i) := by simp [← ha]
  rcases regAt_cases p a with ⟨ha, hr⟩ | ⟨ha, hr⟩ | ⟨ha, hr⟩ | ⟨ha, hr⟩ | ⟨ha, hr⟩ | ⟨ha, hr⟩ | ⟨ha, hr⟩ |
    ⟨i, -, -, ha, hr⟩ | ⟨i, -, ha, hr⟩ | hr <;> rw [hr] at h <;> cases h
  any_goals exact ha
  all_goals exact entryAddr ha

/-- A read sees only the register at its address. -/
theorem memRead_congr {s t : State} {b : Word} (hparams : t.params = s.params)
    (h : ∀ r, b = regAddr r → regValue t r = regValue s r) : memRead t b = memRead s b := by
  rw [memRead_eq_regValue, memRead_eq_regValue, hparams]
  cases hr : regAt s.params b with
  | none => rfl
  | some r => simp [h r (eq_regAddr_of_regAt hr)]

/-- A write other than to CMD changes what no other address reads (R54). -/
theorem memRead_memWrite_of_ne {s : State} (hw : s.inBuf.wf = true) {a b : Word} (ha : a ≠ 0x0000#16) (hb : b ≠ a)
    (v : Word) : memRead (memWrite s a v) b = memRead s b := by
  refine memRead_congr (memWrite_params s a v) fun r hr => ?_
  rcases memWrite_cases s a v with ⟨h0, -, -⟩ | ⟨h0, -, -⟩ | ⟨rfl, h⟩ | ⟨rfl, h⟩ | ⟨i, -, hi, h⟩ | h
  · exact absurd h0 ha
  · exact absurd h0 ha
  · rw [h]
    cases r with
    | arg => exact absurd hr hb
    | _ => rfl
  · rw [h]
    cases r with
    | inLen => exact absurd hr hb
    | _ => rfl
  · rw [h]
    cases r with
    | inEntry j =>
      have hji : j ≠ i := by
        rintro rfl
        exact hb (by simp [hr, regAddr, ← hi])
      simp [regValue, Memory.read_write hw, hji]
    | _ => rfl
  · rw [h]

/-- A write other than to CMD starts nothing and leaves STATUS (R54). -/
theorem memWrite_starts_nothing (s : State) {a : Word} (ha : a ≠ 0x0000#16) (v : Word) :
    (memWrite s a v).pending = s.pending ∧ (memWrite s a v).status = s.status := by
  rcases memWrite_cases s a v with ⟨h0, -, -⟩ | ⟨h0, -, -⟩ | ⟨-, h⟩ | ⟨-, h⟩ | ⟨i, -, -, h⟩ | h
  · exact absurd h0 ha
  · exact absurd h0 ha
  all_goals rw [h]; exact ⟨rfl, rfl⟩

/-- An operand's address reads back the word written there (R22 to R24). -/
theorem memRead_memWrite_operand {s : State} (hparams : paramsValid s.params = true) (hw : s.inBuf.wf = true) {a : Word}
    (ha : a = 0x0001#16 ∨ a = 0x0002#16 ∨ (0x1000 ≤ a.toNat ∧ a.toNat < 0x1000 + s.params.capIn)) (v : Word) :
    memRead (memWrite s a v) a = v := by
  rcases ha with rfl | rfl | ⟨hlow, hhigh⟩
  · simp [memWrite, memRead]
  · simp [memWrite, memRead]
  · obtain ⟨i, hi⟩ : ∃ i, a.toNat = 0x1000 + i := ⟨a.toNat - 0x1000, by omega⟩
    obtain rfl : a = regAddr (.inEntry i) := by simp [regAddr, ← hi]
    have hmap := regAt_inEntry hparams (i := i) (by omega)
    simp [memWrite, memRead, hmap, Memory.read_write hw]

/-- Settles O33, from the read after write and the frame of a write other than to CMD. -/
theorem operandWritesStoreOneWord : Obligations.OperandWritesStoreOneWord := by
  unfold Obligations.OperandWritesStoreOneWord
  intro s a v hparams hw ha
  have hcmd : a ≠ 0x0000#16 := by
    rintro rfl
    simp at ha
  exact ⟨memRead_memWrite_operand hparams hw ha v, fun b hb => memRead_memWrite_of_ne hw hcmd hb v,
    memWrite_starts_nothing s hcmd v⟩

end Sys2Proof.Machine

/-! PROOF. The invariant of the whole machine, one lemma for each thing a step can do (10_state.md R20, R26 to R29, R35,
20_memory.md R56, 70_reset_and_hazards.md R234). -/

namespace Sys2Proof.Machine

/-- The invariant says nothing of the host's side. -/
theorem StateInv.hostSide {s : State} (h : StateInv s) (script : List HostTask) (reads : List Word) (turns : List Agent) :
    StateInv { s with script := script, reads := reads, turns := turns } :=
  { h with }

/-- It holds right after reset, for every legal parameter set (70_reset_and_hazards.md R230). -/
theorem powerOn_inv {p : Params} (h : paramsValid p = true) : StateInv (State.powerOn p) where
  params := h
  inWf := rfl
  inBound := fun _ _ => rfl
  outWf := rfl
  outFits := Nat.zero_le _
  outZero := fun _ _ => rfl
  outByte := fun _ => Nat.zero_le _
  status := .inl ⟨rfl, rfl, rfl, rfl, rfl⟩
  busy := rfl
  snapshot := fun _ hq => nomatch hq
  okCtx := fun _ _ => rfl
  errRes := fun _ => rfl
  fresh := fun _ _ => ⟨rfl, rfl, rfl, rfl⟩

/-- A busy codec shows no report of the last command, whatever DROP is (R26). -/
theorem StatusLegal.of_busy {f : Status} (h : StatusLegal f) (hb : f.busy = true) :
    f.done = false ∧ f.err = false ∧ f.errCode = 0#4 := by
  rcases h with ⟨hidle, -⟩ | ⟨-, hrest⟩ | ⟨hidle, -⟩ | ⟨hidle, -⟩
  · simp [hidle] at hb
  · exact hrest
  · simp [hidle] at hb
  · simp [hidle] at hb

/-- An accept keeps it: BUSY alone is set, with the snapshot R31 takes. -/
theorem accept_keeps_inv {s : State} (h : StateInv s) (v : Word) : StateInv (accept s v) :=
  { h with
    status := .inr (.inl ⟨rfl, rfl, rfl, rfl⟩)
    busy := rfl
    snapshot := by
      rintro q hq
      obtain rfl : takeSnapshot s v = q := by simpa using hq
      exact ⟨rfl, takeSnapshot_input_length s v⟩
    okCtx := fun hdone => nomatch hdone
    errRes := fun herr => nomatch herr
    fresh := fun hidle => nomatch hidle }

/-- A drop keeps it: DROP is free while BUSY = 1. -/
theorem dropWrite_keeps_inv {s : State} (h : StateInv s) (hb : s.status.busy = true) : StateInv (dropWrite s) :=
  { h with
    status := .inr (.inl ⟨hb, h.status.of_busy hb⟩) }

/-- A stored word of IN keeps the canonical form and the entries from CAP_IN on. -/
theorem writeInput_keeps_inv {s : State} (h : StateInv s) {i : Nat} (hi : i < s.params.capIn) (v : Word) :
    StateInv { s with inBuf := s.inBuf.write i v } :=
  { h with
    inWf := Memory.wf_write h.inWf i v
    inBound := fun j (hj : s.params.capIn ≤ j) => by
      rw [Memory.read_write h.inWf, if_neg (by omega)]
      exact h.inBound j hj }

/-- Every write of the host keeps it. -/
theorem memWrite_keeps_inv {s : State} (h : StateInv s) (a v : Word) : StateInv (memWrite s a v) := by
  rcases memWrite_cases s a v with ⟨-, -, hw⟩ | ⟨-, hb, hw⟩ | ⟨-, hw⟩ | ⟨-, hw⟩ | ⟨i, hi, -, hw⟩ | hw <;> rw [hw]
  · exact accept_keeps_inv h v
  · exact dropWrite_keeps_inv h hb
  · exact { h with }
  · exact { h with }
  · exact writeInput_keeps_inv h hi v
  · exact h

/-- Every access of the host keeps it, and so does the reset event. -/
theorem doAccess_keeps_inv {s : State} (h : StateInv s) (a : Option Access) : StateInv (doAccess s a) := by
  cases a with
  | none => exact (powerOn_inv h.params).hostSide s.script s.reads s.turns
  | some a =>
    cases a with
    | read a => exact h.hostSide s.script (memRead s a :: s.reads) s.turns
    | write a v => exact memWrite_keeps_inv h a v

theorem hostStep_keeps_inv {s : State} (h : StateInv s) : StateInv (hostStep s) := by
  cases hs : s.script with
  | nil => rwa [hostStep_nil hs]
  | cons t ts =>
    rw [hostStep_cons hs]
    exact (doAccess_keeps_inv h _).hostSide _ _ _

theorem takeTurn_keeps_inv {s : State} (h : StateInv s) : StateInv (takeTurn s) :=
  h.hostSide s.script s.reads s.turns.tail

/-- What a commit leaves in OUT, where the result fits (R27): OUT_LEN is its length, the entries from there on are 0, and
every entry is a byte. -/
theorem outEntries_holds_fitting {p : Params} (hp : paramsValid p = true) {bs : List Byte} (hfits : bs.length ≤ p.capOut) :
    (lenWord bs.length).toNat ≤ p.capOut ∧
    (∀ i, (lenWord bs.length).toNat ≤ i → (outEntries bs).read i = 0#16) ∧
    ∀ i, ((outEntries bs).read i).toNat ≤ 255 := by
  have hcap := capacities_of_valid hp
  rw [lenWord_toNat (by omega)]
  refine ⟨hfits, fun i hi => ?_, fun i => ?_⟩
  · rw [outEntries_read, List.getD_eq_default _ _ hi]
    rfl
  · rw [outEntries_read, zext16_toNat]
    omega

/-- The commit of a result that fits keeps it. -/
theorem commit_keeps_inv {s : State} (h : StateInv s) {r : Result} (hfits : (resultBytes r).length ≤ s.params.capOut) :
    StateInv (commit s r) := by
  obtain ⟨houtFits, houtZero, houtByte⟩ := outEntries_holds_fitting h.params hfits
  cases r with
  | ok r =>
    exact { h with
      outWf := outEntries_wf r.out
      outFits := houtFits
      outZero := houtZero
      outByte := houtByte
      status := .inr (.inr (.inl ⟨rfl, rfl, rfl, rfl⟩))
      busy := rfl
      snapshot := fun _ hq => nomatch hq
      okCtx := fun _ _ => rfl
      errRes := fun herr => nomatch herr
      fresh := fun _ hdone => nomatch hdone }
  | error f =>
    exact { h with
      outWf := outEntries_wf f.msg
      outFits := houtFits
      outZero := houtZero
      outByte := houtByte
      status := .inr (.inr (.inr ⟨rfl, rfl, rfl, code_bounds f.code⟩))
      busy := rfl
      snapshot := fun _ hq => nomatch hq
      okCtx := fun _ herr => nomatch herr
      errRes := fun _ => rfl
      fresh := fun _ hdone => nomatch hdone }

/-- Settles O38: each way a step answers a next state keeps the invariant; a commit does because its snapshot is one R31
takes, so that the result fits in OUT. -/
theorem everyStepKeepsTheInvariant : Obligations.EveryStepKeepsTheInvariant := by
  unfold Obligations.EveryStepKeepsTheInvariant
  intro s t h hstep
  have hturn := takeTurn_keeps_inv h
  obtain ⟨-, ⟨-, rfl⟩ | ⟨-, rfl⟩ | ⟨-, -, rfl⟩ | ⟨q, i, -, hpending, -, rfl⟩ | ⟨q, e, -, -, -, rfl⟩⟩ := step_cases hstep
  · exact h
  · exact hostStep_keeps_inv hturn
  · exact hturn
  · obtain ⟨-, hsnapshot⟩ := h.snapshot q hpending
    exact commit_keeps_inv hturn (resultOf_fits h.params hsnapshot i)
  · exact commit_keeps_inv hturn (r := .error _) (Nat.zero_le _)

end Sys2Proof.Machine

/-! PROOF. The register space as a whole: what each address reads, where a write is ignored, the side effects of one access
(20_memory.md R50 to R54, 10_state.md R25), and the room that OUT has for every result (R56). -/

namespace Sys2Proof.Machine

/-- The map has nothing at the addresses between its ranges (R50, R51). -/
theorem regAt_reserved {p : Params} {a : Word}
    (h : (0x0007 ≤ a.toNat ∧ a.toNat ≤ 0x0FFF) ∨ (0x1000 + p.capIn ≤ a.toNat ∧ a.toNat ≤ 0x3FFF) ∨
      0x4000 + p.capOut ≤ a.toNat) : regAt p a = none := by
  have hfixed : 0x0007 ≤ a.toNat := by omega
  rcases regAt_cases p a with ⟨rfl, -⟩ | ⟨rfl, -⟩ | ⟨rfl, -⟩ | ⟨rfl, -⟩ | ⟨rfl, -⟩ | ⟨rfl, -⟩ | ⟨rfl, -⟩ |
    ⟨i, hi, hwindow, ha, -⟩ | ⟨i, hi, ha, -⟩ | hnone
  any_goals simp at hfixed
  · omega
  · omega
  · exact hnone

/-- The word at OUT[i] is what a read of its address returns. -/
theorem memRead_outEntry {s : State} (h : paramsValid s.params = true) {i : Nat} (hi : i < s.params.capOut) :
    memRead s (regAddr (.outEntry i)) = s.outBuf.read i := by
  simp [memRead, regAt_outEntry h hi]

/-- Bits put below `x` shift its value up by their number. -/
theorem toNat_append_eq_add {m n : Nat} (x : BitVec m) (y : BitVec n) : (x ++ y).toNat = x.toNat * 2 ^ n + y.toNat := by
  rw [BitVec.toNat_append, ← Nat.shiftLeft_add_eq_or_of_lt y.isLt, Nat.shiftLeft_eq]

/-- The fields of STATUS at the places of R25, the bits above them 0. -/
theorem statusWord_toNat (f : Status) :
    (statusWord f).toNat = f.busy.toNat + 2 * f.done.toNat + 4 * f.err.toNat + 8 * f.drop.toNat + 16 * f.errCode.toNat := by
  simp only [statusWord, toNat_append_eq_add, BitVec.toNat_ofBool, BitVec.toNat_ofNat]
  omega

/-- Settles O31: the map's entry at each address of R50, and none at a reserved one. -/
theorem readsFollowTheRegisterMap : Obligations.ReadsFollowTheRegisterMap := by
  unfold Obligations.ReadsFollowTheRegisterMap
  intro s hparams
  exact ⟨rfl, rfl, rfl, statusWord_toNat s.status, rfl, rfl, rfl, fun i hi => memRead_inEntry hparams hi,
    fun i hi => memRead_outEntry hparams hi, fun a ha => by simp [memRead, regAt_reserved ha]⟩

/-- Settles O32: the addresses at which a write has an effect are CMD, ARG, IN_LEN and those of IN. -/
theorem ignoredWritesChangeNothing : Obligations.IgnoredWritesChangeNothing := by
  unfold Obligations.IgnoredWritesChangeNothing
  intro s a v hparams ha
  have hcap := capacities_of_valid hparams
  have hreadOnly : 0x0003 ≤ a.toNat := by omega
  rcases memWrite_cases s a v with ⟨rfl, -⟩ | ⟨rfl, -⟩ | ⟨rfl, -⟩ | ⟨rfl, -⟩ | ⟨i, hi, haddr, -⟩ | hsame
  any_goals simp at hreadOnly
  · omega
  · exact hsame

/-- A read adds to what the host has read, and no address shows that (R54). -/
theorem memRead_hostRead (s : State) (a b : Word) : memRead (hostRead s a) b = memRead s b :=
  memRead_congr rfl fun r _ => by cases r <;> rfl

/-- The canonical form makes a second write of the same word give the very same list. -/
theorem Memory.write_write_same {m : Memory} (h : m.wf = true) (i : Nat) (v : Word) :
    (m.write i v).write i v = m.write i v := by
  have hwritten := Memory.wf_write h i v
  refine Memory.ext_of_wfFrom (Memory.wf_write hwritten i v) hwritten fun j => ?_
  rw [Memory.read_write hwritten, Memory.read_write h]
  split <;> rfl

/-- Away from CMD, a second write of the same word changes nothing (R54). -/
theorem memWrite_memWrite_same {s : State} (hw : s.inBuf.wf = true) {a : Word} (ha : a ≠ 0x0000#16) (v : Word) :
    memWrite (memWrite s a v) a v = memWrite s a v := by
  cases h : regAt s.params a with
  | none => simp [memWrite, h]
  | some r =>
    cases r with
    | cmd => exact absurd (eq_regAddr_of_regAt h) ha
    | inEntry i => simp [memWrite, h, Memory.write_write_same hw]
    | _ => simp [memWrite, h]

/-- Settles O34, from the frame of a read, the frame of a write other than to CMD, and that write's idempotence. -/
theorem accessSideEffects : Obligations.AccessSideEffects := by
  unfold Obligations.AccessSideEffects
  intro s a v hw
  refine ⟨memRead_hostRead s a, hostRead_pending s a, fun ha => ?_⟩
  obtain ⟨hpending, -⟩ := memWrite_starts_nothing s ha v
  exact ⟨fun b hb => memRead_memWrite_of_ne hw ha hb v, hpending, memWrite_memWrite_same hw ha v⟩

/-- R56's table for every instruction and every snapshot that R31 takes. -/
theorem resultOf_within_table {p : Params} {q : Snapshot} (hq : SnapshotOk p q) (i : Instr) :
    ResultWithin (largestOutput p i) p.capIn (isScalar i) (resultOf i p q) :=
  (resultOf_within i p q).mono (largestOutput_mono hq.input_length_le i) hq.input_length_le

/-- OUT_LEN is the exact length of a result that fits in OUT (R27). -/
theorem commit_outLen_toNat {s : State} (hp : paramsValid s.params = true) {r : Result}
    (hfits : (resultBytes r).length ≤ s.params.capOut) : (commit s r).outLen.toNat = (resultBytes r).length := by
  have hcap := capacities_of_valid hp
  have hlen : (resultBytes r).length < 65536 := by omega
  cases r <;> exact lenWord_toNat hlen

/-- Settles O24: OUT_LEN is the result's length, which the table bounds; ERR tells which of its two bounds holds. -/
theorem everyResultFitsInOut : Obligations.EveryResultFitsInOut := by
  unfold Obligations.EveryResultFitsInOut
  intro i s t q hparams hpending hsnapshot hexec
  obtain rfl : commit s (resultOf i s.params q) = t := by simpa [exec_pending hpending] using hexec
  have hfits := resultOf_fits hparams hsnapshot i
  have hwithin := resultOf_within_table hsnapshot i
  rw [commit_outLen_toNat hparams hfits]
  refine ⟨hfits, ?_⟩
  cases hr : resultOf i s.params q with
  | ok r =>
    obtain ⟨hlen, -⟩ := resultWithin_ok.mp (hr ▸ hwithin)
    exact ⟨fun _ => hlen, fun herr => (nomatch herr)⟩
  | error f =>
    have hmsg : f.msg.length ≤ s.params.capIn := resultWithin_error.mp (hr ▸ hwithin)
    exact ⟨fun hok => (nomatch hok), fun _ => hmsg⟩

end Sys2Proof.Machine

/-! PROOF. The command word: its four fields, the legal words among all, the two directions between words and mnemonics
(30_encoding.md R80 to R84, R89), and the commit of an illegal word. -/

namespace Sys2Proof.Machine

theorem opField_toNat (w : Word) : (opField w).toNat = w.toNat % 16 := by simp [opField]

theorem selField_toNat (w : Word) : (selField w).toNat = w.toNat / 16 % 4 := by
  simp [selField, Nat.shiftRight_eq_div_pow]

theorem unordField_toNat (w : Word) : (unordField w).toNat = w.toNat / 64 % 2 := by
  simp [unordField, Nat.shiftRight_eq_div_pow]

theorem reservedField_toNat (w : Word) : (reservedField w).toNat = w.toNat / 128 := by
  have hw := w.isLt
  simp only [reservedField, BitVec.extractLsb'_toNat, Nat.shiftRight_eq_div_pow]
  omega

/-- The number of a word with the reserved bits 0 (R80). -/
theorem packWord_toNat (unord : BitVec 1) (sel : BitVec 2) (op : BitVec 4) :
    (packWord unord sel op).toNat = 64 * unord.toNat + 16 * sel.toNat + op.toNat := by
  simp only [packWord, toNat_append_eq_add, BitVec.toNat_ofNat]
  omega

/-- No bit of a word lies outside its four fields (R80). -/
theorem packWord_fields {w : Word} (h : reservedField w = 0#9) :
    packWord (unordField w) (selField w) (opField w) = w := by
  have hreserved : w.toNat / 128 = 0 := by rw [← reservedField_toNat, h]; rfl
  apply BitVec.eq_of_toNat_eq
  rw [packWord_toNat, opField_toNat, selField_toNat, unordField_toNat]
  omega

/-- The OP map's answer is the mnemonic whose command word has these fields: UNORD is read at OP 0 and SEL at OP 0xB, and
at every other OP the checks before the map leave both 0 (R82, R83). -/
theorem encode_of_decodeOp {op : BitVec 4} {sel : BitVec 2} {unord : BitVec 1} {i : Instr}
    (hunord : unord = 1#1 → op = 0x0#4) (hsel : sel ≠ 0#2 → op = 0xB#4) (h : decodeOp op sel unord = .ok i) :
    encode i = packWord unord sel op := by
  have unord_zero (hop : op ≠ 0x0#4) : unord = 0#1 := (BitVec.eq_zero_or_eq_one unord).resolve_right (mt hunord hop)
  have sel_zero (hop : op ≠ 0xB#4) : sel = 0#2 := not_not.mp (mt hsel hop)
  by_cases hframe : op = 0x0#4
  · subst hframe
    obtain rfl := sel_zero (by decide)
    rcases BitVec.eq_zero_or_eq_one unord with rfl | rfl <;> cases h <;> rfl
  obtain rfl := unord_zero hframe
  by_cases hcat : op = 0xB#4
  · subst hcat
    have hsels : ∀ sel : BitVec 2, sel = 0#2 ∨ sel = 1#2 ∨ sel = 2#2 ∨ sel = 3#2 := by decide
    rcases hsels sel with rfl | rfl | rfl | rfl <;> cases h <;> rfl
  obtain rfl := sel_zero hcat
  unfold decodeOp at h
  split at h
  case h_1 hop => exact absurd (BitVec.eq_of_toNat_eq hop) hframe
  case h_12 hop => exact absurd (BitVec.eq_of_toNat_eq hop) hcat
  case h_13 => cases h
  all_goals
    next hop =>
      cases h
      exact BitVec.eq_of_toNat_eq (by simp [encode, packWord_toNat, hop])

/-- Decoding the command word of a mnemonic gives it back. -/
theorem decodeWord_encode (i : Instr) : decodeWord (encode i) = .ok i := by cases i <;> rfl

/-- A word that decodes passed the checks of the reserved, UNORD and SEL bits, and then the OP map answered. -/
theorem decodeWord_eq_ok_iff {w : Word} {i : Instr} :
    decodeWord w = .ok i ↔
      reservedField w = 0#9 ∧ (unordField w = 1#1 → opField w = 0x0#4) ∧ (selField w ≠ 0#2 → opField w = 0xB#4) ∧
        decodeOp (opField w) (selField w) (unordField w) = .ok i := by
  unfold decodeWord
  split_ifs <;> simp_all

/-- A word that decodes is the command word of its mnemonic, so that no bit of it is dropped (R89). -/
theorem encode_of_decodeWord {w : Word} {i : Instr} (h : decodeWord w = .ok i) : encode i = w := by
  obtain ⟨hreserved, hunord, hsel, hop⟩ := decodeWord_eq_ok_iff.mp h
  rw [encode_of_decodeOp hunord hsel hop, packWord_fields hreserved]

/-- Settles O1, each direction a lemma of its own. -/
theorem decodeAndEncodeAgree : Obligations.DecodeAndEncodeAgree := by
  unfold Obligations.DecodeAndEncodeAgree
  intro w i
  exact ⟨encode_of_decodeWord, fun h => h ▸ decodeWord_encode i⟩

/-- Settles O2: each word of the table is its mnemonic's command word. -/
theorem commandWordTable : Obligations.CommandWordTable := by
  unfold Obligations.CommandWordTable
  intro e he
  have hencode : encode e.2 = e.1 := by revert e; decide
  rw [← hencode, decodeWord_encode]

/-- A word that breaks none of R84's five clauses. -/
def LegalCommand (w : Word) : Prop :=
  reservedField w = 0#9 ∧ opField w < 0xC#4 ∧ (unordField w = 1#1 → opField w = 0x0#4) ∧
  (selField w ≠ 0#2 → opField w = 0xB#4) ∧ selField w ≠ 3#2

/-- The five clauses on the number of the word. -/
theorem not_legalCommand_iff (w : Word) :
    ¬ LegalCommand w ↔
      (w.toNat / 128 ≠ 0 ∨ 12 ≤ w.toNat % 16 ∨ (w.toNat / 64 % 2 = 1 ∧ w.toNat % 16 ≠ 0) ∨
        (w.toNat / 16 % 4 ≠ 0 ∧ w.toNat % 16 ≠ 11) ∨ (w.toNat % 16 = 11 ∧ w.toNat / 16 % 4 = 3)) := by
  simp only [LegalCommand, ne_eq, BitVec.lt_def, ← BitVec.toNat_inj, reservedField_toNat, opField_toNat, selField_toNat,
    unordField_toNat, BitVec.toNat_ofNat]
  omega

/-- The command word of every mnemonic is legal. -/
theorem encode_legal (i : Instr) : LegalCommand (encode i) := by
  cases i with
  | frame => exact Laws.LegalWord.frame
  | frameU => exact Laws.LegalWord.frameU
  | b2t => exact Laws.LegalWord.b2t
  | send => exact Laws.LegalWord.send
  | reasm => exact Laws.LegalWord.reasm
  | trim => exact Laws.LegalWord.trim
  | decode => exact Laws.LegalWord.decode
  | dser => exact Laws.LegalWord.dser
  | dled => exact Laws.LegalWord.dled
  | dmv => exact Laws.LegalWord.dmv
  | emv => exact Laws.LegalWord.emv
  | dmvp => exact Laws.LegalWord.dmvp
  | catSer => exact Laws.LegalWord.catSer
  | catVolt => exact Laws.LegalWord.catVolt
  | catLed => exact Laws.LegalWord.catLed

/-- The OP map answers at every OP below 0xC, unless SEL is 3 (R81, R84). -/
theorem decodeOp_answers {op : BitVec 4} {sel : BitVec 2} (hop : op < 0xC#4) (hsel : sel ≠ 3#2) (unord : BitVec 1) :
    ∃ i, decodeOp op sel unord = .ok i := by
  have hop' : op.toNat < 12 := hop
  have hsel' : sel.toNat ≠ 3 := fun h => hsel (BitVec.eq_of_toNat_eq h)
  unfold decodeOp
  split
  case h_1 => split <;> exact ⟨_, rfl⟩
  case h_12 =>
    split
    case h_4 => simp only [imp_false] at *; omega
    all_goals exact ⟨_, rfl⟩
  case h_13 => simp only [imp_false] at *; omega
  all_goals exact ⟨_, rfl⟩

/-- The words that decode are the legal ones (R84). -/
theorem exists_decodeWord_iff (w : Word) : (∃ i, decodeWord w = .ok i) ↔ LegalCommand w := by
  constructor
  · rintro ⟨i, hi⟩
    exact encode_of_decodeWord hi ▸ encode_legal i
  · rintro ⟨hreserved, hop, hunord, hsel, hsel3⟩
    obtain ⟨i, hi⟩ := decodeOp_answers hop hsel3 (unordField w)
    exact ⟨i, decodeWord_eq_ok_iff.mpr ⟨hreserved, hunord, hsel, hi⟩⟩

/-- The codec's turn with an illegal word pending commits `err(IllegalOperation, w, [])` (R84, 60_exceptions.md R204). -/
theorem step_illegal {s : State} {q : Snapshot} (hparams : paramsValid s.params = true) (hpending : s.pending = some q)
    (hillegal : ∀ i, decodeWord q.cmd ≠ .ok i) (hturn : nextAgent s = some .codec) :
    step s = .next (commitIllegal (takeTurn s) q) := by
  cases hdecode : decodeWord q.cmd with
  | ok i => exact absurd hdecode (hillegal i)
  | error e =>
    calc step s = agentStep s := step_valid hparams
      _ = codecStep (takeTurn s) := agentStep_codec hturn
      _ = .next (commitIllegal (takeTurn s) q) := codecStep_error (s := takeTurn s) hpending hdecode

/-- Settles O3: the words that decode are those that break no clause; the accept asks nothing of the word; and the codec's
turn reports the error. -/
theorem illegalWordsCommitIllegalOperation : Obligations.IllegalWordsCommitIllegalOperation := by
  unfold Obligations.IllegalWordsCommitIllegalOperation
  intro w
  refine ⟨?clauses, fun hillegal => ⟨fun s hidle => memWrite_cmd_idle hidle w, ?commit⟩⟩
  case clauses => rw [← not_legalCommand_iff, ← exists_decodeWord_iff, not_exists]
  case commit =>
    rintro s q hparams hpending rfl hturn
    exact ⟨_, step_illegal hparams hpending hillegal hturn,
      reportError_fails (takeTurn s) ⟨.illegalOperation, q.cmd, []⟩ (Nat.zero_lt_succ _)⟩

end Sys2Proof.Machine

/-! PROOF. What an instruction's result depends on (30_encoding.md R85), and FRAME.U (40_frame_encoder.md R102). -/

namespace Sys2Proof.Machine

theorem withInput_congr {p : Params} {q r : Snapshot} (hlen : q.inLen = r.inLen) (hinput : q.input = r.input)
    (op : List Word → Result) : withInput p q op = withInput p r op := by
  simp only [withInput, hlen, hinput]

theorem withTwoInputs_congr {p : Params} {q r : Snapshot} (hlen : q.inLen = r.inLen) (hinput : q.input = r.input)
    (op : List Word → Result) : withTwoInputs p q op = withTwoInputs p r op := by
  simp only [withTwoInputs, hlen, withInput_congr hlen hinput]

/-- An operation is computed from the operands it reads alone (R85). -/
theorem resultOf_congr {i : Instr} {q r : Snapshot} (p : Params)
    (hinput : readsInput i = true → q.inLen = r.inLen ∧ q.input = r.input) (harg : readsArg i = true → q.arg = r.arg) :
    resultOf i p q = resultOf i p r := by
  have input_congr (hreads : readsInput i = true) (op : List Word → Result) : withInput p q op = withInput p r op :=
    withInput_congr (hinput hreads).1 (hinput hreads).2 op
  cases i with
  | frame => exact input_congr rfl _
  | frameU => exact input_congr rfl _
  | b2t => exact congrArg (byteToTriplet p) (harg rfl)
  | send =>
    simp only [resultOf, harg rfl]
    exact input_congr rfl _
  | reasm => exact input_congr rfl _
  | trim => exact input_congr rfl _
  | decode => exact input_congr rfl _
  | dser => exact input_congr rfl _
  | dled => exact input_congr rfl _
  | dmv => exact input_congr rfl _
  | emv => exact congrArg encodeMillivolts (harg rfl)
  | dmvp => exact withTwoInputs_congr (hinput rfl).1 (hinput rfl).2 _
  | catSer => rfl
  | catVolt => rfl
  | catLed => rfl

/-- Settles O20: both commits are of the same result. -/
theorem unusedOperandsDoNotMatter : Obligations.UnusedOperandsDoNotMatter := by
  unfold Obligations.UnusedOperandsDoNotMatter
  intro i s u s' u' q r hparams hs hu hinput harg hs' hu'
  obtain rfl : commit s (resultOf i s.params q) = s' := by simpa [exec_pending hs] using hs'
  obtain rfl : commit u (resultOf i u.params r) = u' := by simpa [exec_pending hu] using hu'
  rw [resultOf_congr s.params hinput harg, hparams]
  exact commit_sameResult s u _

theorem prepareFrame_unordered (xs : List Word) :
    prepareFrame true xs = .error ⟨.rejectedUnorderedInput, 0#16, []⟩ := rfl

/-- Settles O5: R102's first check fails before the payload is looked at. -/
theorem frameUAlwaysRejects : Obligations.FrameUAlwaysRejects := by
  unfold Obligations.FrameUAlwaysRejects
  refine ⟨decodeWord_encode .frameU, fun s q hready => ?_⟩
  have hresult : resultOf .frameU s.params q = .error ⟨.rejectedUnorderedInput, 0#16, []⟩ := by
    rw [resultOf, withInput_ready hready, prepareFrame_unordered]
  exact commitsErr_of_result hready.pending hresult (Nat.zero_lt_succ _)

end Sys2Proof.Machine

/-! PROOF. The host's script run on: LDIN and OUT2IN with the codec idle, and WAIT across a commit (30_encoding.md R88). -/

namespace Sys2Proof.Machine

/-! ### Steps in a row -/

theorem stepMany_succ {s t : State} (h : step s = .next t) (k : Nat) : stepMany (k + 1) s = stepMany k t := by
  simp [stepMany, h]

theorem stepMany_one {s t : State} (h : step s = .next t) : stepMany 1 s = .next t := stepMany_succ h 0

theorem stepMany_add {a : Nat} {s t : State} (h : stepMany a s = .next t) (b : Nat) :
    stepMany (a + b) s = stepMany b t := by
  induction a generalizing s with
  | zero =>
    obtain rfl : s = t := by simpa [stepMany] using h
    rw [Nat.zero_add]
  | succ a ih =>
    cases hstep : step s with
    | next u =>
      rw [stepMany_succ hstep] at h
      rw [Nat.add_right_comm, stepMany_succ hstep, ih h]
    | fault r => exact nomatch r
    | refused r => simp [stepMany, hstep] at h

/-! ### One access of the script -/

/-- The codec as in `s`, the host with this script and these words read. -/
def withHost (s : State) (ts : List HostTask) (reads : List Word) : State := { s with script := ts, reads := reads }

/-- A read hands its word to the host and leaves the rest of its task (20_memory.md R54). -/
theorem hostStep_read {s : State} {t : HostTask} {ts : List HostTask} (hscript : s.script = t :: ts) {a : Word}
    (haccess : taskAccess s.params t = some (.read a)) :
    hostStep s = withHost s (taskRest s.params (memRead s a) t ++ ts) (memRead s a :: s.reads) := by
  rw [hostStep_cons hscript, haccess]
  rfl

/-- The codec is idle and the turns are used up (log entry 3), so that each step is the script's next access. -/
structure HostRuns (s : State) : Prop where
  params : paramsValid s.params = true
  pending : s.pending = none
  turns : s.turns = []

theorem HostRuns.hostSide {s : State} (h : HostRuns s) (ts : List HostTask) (reads : List Word) :
    HostRuns (withHost s ts reads) := ⟨h.params, h.pending, h.turns⟩

theorem takeTurn_of_nil {s : State} (h : s.turns = []) : takeTurn s = s := by
  obtain ⟨⟩ := s
  cases h
  rfl

theorem HostRuns.step_eq {s : State} (h : HostRuns s) {t : HostTask} {ts : List HostTask} (hscript : s.script = t :: ts) :
    step s = .next (hostStep s) := by
  have hturn : nextAgent s = some .host := by simp [nextAgent, h.turns, h.pending, hscript]
  rw [step_valid h.params, agentStep_host hturn, takeTurn_of_nil h.turns]

/-! ### A list of words written to IN, then its length to IN_LEN -/

/-- The words `vs` written to the entries from `i` on. -/
def Memory.writeList (m : Memory) (i : Nat) : List Word → Memory
  | [] => m
  | v :: vs => Memory.writeList (m.write i v) (i + 1) vs

/-- Entry `j` after the list is written: its word of the list, or what was there outside it. -/
theorem Memory.read_writeList {m : Memory} (h : m.wf = true) (i : Nat) (vs : List Word) (j : Nat) :
    (m.writeList i vs).read j = if j < i then m.read j else vs.getD (j - i) (m.read j) := by
  induction vs generalizing m i with
  | nil => simp [Memory.writeList]
  | cons v vs ih =>
    rw [Memory.writeList, ih (Memory.wf_write h i v), Memory.read_write h]
    rcases Nat.lt_trichotomy j i with hlt | rfl | hgt
    · simp [hlt, show j < i + 1 by omega, show j ≠ i by omega]
    · simp
    · obtain ⟨d, rfl⟩ : ∃ d, j = i + 1 + d := ⟨j - (i + 1), by omega⟩
      simp [show ¬ i + 1 + d < i by omega, show ¬ i + 1 + d < i + 1 by omega, show i + 1 + d ≠ i by omega,
        show i + 1 + d - i = d + 1 by omega]

/-- The task stands for "write `vs` to IN from entry `i` on, then IN_LEN" (R88): LDIN at its start, the rest of one, or an
OUT2IN that has read all it copies. -/
structure Loads (p : Params) (t : HostTask) (i : Nat) (vs : List Word) : Prop where
  access : taskAccess p t = some (loadAccess i vs)
  rest : ∀ v, taskRest p v t = loadRest i vs

theorem loads_ldin (p : Params) (items : List LoadItem) : Loads p (.stmt (.ldin items)) 0 (loadWords p items) :=
  ⟨rfl, fun _ => rfl⟩

theorem loads_load (p : Params) (i : Nat) (vs : List Word) : Loads p (.load i vs) i vs := ⟨rfl, fun _ => rfl⟩

theorem loads_copy (p : Params) (i : Nat) (got : List Word) : Loads p (.copy i 0 got) 0 got := ⟨rfl, fun _ => rfl⟩

theorem memWrite_inEntry {s : State} (h : paramsValid s.params = true) {i : Nat} (hi : i < s.params.capIn) (v : Word) :
    memWrite s (regAddr (.inEntry i)) v = { s with inBuf := s.inBuf.write i v } := by
  simp [memWrite, regAt_inEntry h hi]

theorem HostRuns.step_loads_nil {s : State} (h : HostRuns s) {t : HostTask} {ts : List HostTask} {i : Nat}
    (hscript : s.script = t :: ts) (hloads : Loads s.params t i []) :
    step s = .next { s with inLen := BitVec.ofNat 16 i, script := ts } := by
  rw [h.step_eq hscript, hostStep_cons hscript, hloads.rest, hloads.access]
  rfl

theorem HostRuns.step_loads_cons {s : State} (h : HostRuns s) {t : HostTask} {ts : List HostTask} {i : Nat} {v : Word}
    {vs : List Word} (hscript : s.script = t :: ts) (hloads : Loads s.params t i (v :: vs)) (hi : i < s.params.capIn) :
    step s = .next { s with inBuf := s.inBuf.write i v, script := .load (i + 1) vs :: ts } := by
  rw [h.step_eq hscript, hostStep_cons hscript, hloads.rest, hloads.access, loadAccess, doAccess,
    memWrite_inEntry h.params hi]
  rfl

/-- Such a task takes an access for each word and one for IN_LEN, and changes nothing but IN and IN_LEN. -/
theorem HostRuns.stepMany_loads {s : State} (h : HostRuns s) {t : HostTask} {ts : List HostTask} {i : Nat} {vs : List Word}
    (hscript : s.script = t :: ts) (hloads : Loads s.params t i vs) (hfits : i + vs.length ≤ s.params.capIn) :
    stepMany (vs.length + 1) s =
      .next { s with
        inBuf := s.inBuf.writeList i vs
        inLen := BitVec.ofNat 16 (i + vs.length)
        script := ts } := by
  induction vs generalizing s t i with
  | nil => exact stepMany_one (h.step_loads_nil hscript hloads)
  | cons v vs ih =>
    rw [List.length_cons] at hfits ⊢
    have hstep := h.step_loads_cons hscript hloads (by omega)
    have hfits' : i + 1 + vs.length ≤ s.params.capIn := by omega
    have hrest := ih (s := { s with inBuf := s.inBuf.write i v, script := .load (i + 1) vs :: ts })
      ⟨h.params, h.pending, h.turns⟩ rfl (loads_load _ _ _) hfits'
    rw [stepMany_succ hstep, hrest, Nat.add_right_comm]
    rfl

/-- Settles O52: LDIN is such a task from entry 0 on. -/
theorem ldinLoadsTheOperandList : Obligations.LdinLoadsTheOperandList := by
  unfold Obligations.LdinLoadsTheOperandList
  intro s items ts hparams hw hpending hturns hscript hfits
  have hcap := capacities_of_valid hparams
  have hrun := HostRuns.stepMany_loads ⟨hparams, hpending, hturns⟩ hscript (loads_ldin s.params items) (by omega)
  refine ⟨_, hrun, rfl, ?inLen, fun i => ?entry, rfl⟩
  case inLen => simp only [Nat.zero_add, BitVec.toNat_ofNat]; omega
  case entry => simp [Memory.read_writeList hw]

/-! ### OUT2IN -/

/-- The `n` words from entry `i` on. -/
def Memory.slice (m : Memory) (i n : Nat) : List Word := (List.range' i n).map fun j => m.read j

theorem Memory.slice_zero (m : Memory) (i : Nat) : m.slice i 0 = [] := rfl

theorem Memory.slice_succ (m : Memory) (i n : Nat) : m.slice i (n + 1) = m.read i :: m.slice (i + 1) n := by
  rw [Memory.slice, List.range'_succ, List.map_cons, Memory.slice]

theorem outBuf_slice_outLen (s : State) : s.outBuf.slice 0 s.outLen.toNat = outWords s := by
  rw [Memory.slice, ← List.range_eq_range', outWords]

theorem outWords_length (s : State) : (outWords s).length = s.outLen.toNat := by simp [outWords]

/-- The reading half of an OUT2IN: an access for each entry, which changes nothing but what the host holds. -/
theorem HostRuns.stepMany_copy {s : State} (h : HostRuns s) (ts : List HostTask) (reads got : List Word) {i n : Nat}
    (hfits : i + n ≤ s.params.capOut) :
    stepMany n (withHost s (.copy i n got :: ts) reads) =
      .next (withHost s (.copy (i + n) 0 (got ++ s.outBuf.slice i n) :: ts)
        ((s.outBuf.slice i n).reverse ++ reads)) := by
  induction n generalizing i got reads with
  | zero => simp [stepMany, Memory.slice_zero]
  | succ n ih =>
    have hread : memRead (withHost s (.copy i (n + 1) got :: ts) reads) (regAddr (.outEntry i)) = s.outBuf.read i :=
      memRead_outEntry h.params (by omega)
    have hstep : step (withHost s (.copy i (n + 1) got :: ts) reads) =
        .next (withHost s (.copy (i + 1) n (got ++ [s.outBuf.read i]) :: ts) (s.outBuf.read i :: reads)) := by
      rw [(h.hostSide _ _).step_eq rfl, hostStep_read rfl rfl, hread]
      rfl
    refine (stepMany_succ hstep n).trans ((ih _ _ (by omega)).trans ?_)
    simp [Memory.slice_succ, Nat.add_right_comm i 1 n, ← Nat.add_assoc]

/-- An OUT2IN reads OUT_LEN and the n entries, and loads what it read as LDIN loads its list. -/
theorem HostRuns.stepMany_out2in {s : State} (h : HostRuns s) {ts : List HostTask}
    (hscript : s.script = .stmt .out2in :: ts) (hfits : s.outLen.toNat ≤ s.params.capIn) :
    stepMany (2 * s.outLen.toNat + 2) s =
      .next { s with
        inBuf := s.inBuf.writeList 0 (outWords s)
        inLen := s.outLen
        script := ts
        reads := (outWords s).reverse ++ s.outLen :: s.reads } := by
  have hcap := capacities_of_valid h.params
  have hlength := outWords_length s
  have hcount : 2 * s.outLen.toNat + 2 = (s.outLen.toNat + ((outWords s).length + 1)) + 1 := by omega
  have hinLen : BitVec.ofNat 16 (0 + (outWords s).length) = s.outLen := by simp [hlength]
  have hask : step s = .next (withHost s (.copy 0 s.outLen.toNat [] :: ts) (s.outLen :: s.reads)) := by
    rw [h.step_eq hscript, hostStep_read hscript rfl]
    rfl
  have hcopy := h.stepMany_copy ts (s.outLen :: s.reads) [] (i := 0) (n := s.outLen.toNat) (by omega)
  rw [outBuf_slice_outLen, List.nil_append] at hcopy
  have hfits' : 0 + (outWords s).length ≤ s.params.capIn := by omega
  have hload := (h.hostSide (.copy (0 + s.outLen.toNat) 0 (outWords s) :: ts)
    ((outWords s).reverse ++ s.outLen :: s.reads)).stepMany_loads rfl (loads_copy _ _ _) hfits'
  rw [hcount, stepMany_succ hask, stepMany_add hcopy, hload, hinLen]
  rfl

/-- Settles O54, entry by entry of what OUT2IN loads. -/
theorem out2inCopiesTheResult : Obligations.Out2inCopiesTheResult := by
  unfold Obligations.Out2inCopiesTheResult
  intro s ts hparams hw hpending hturns hscript hfits
  refine ⟨_, HostRuns.stepMany_out2in ⟨hparams, hpending, hturns⟩ hscript hfits, rfl, rfl, fun i hi => ?copied,
    fun i hi => ?kept, rfl, ?same, rfl⟩
  case copied => simp [Memory.read_writeList hw, outWords, hi]
  case kept => simp [Memory.read_writeList hw, outWords, hi]
  case same => constructor <;> intros <;> rfl

/-! ### WAIT -/

/-- Bit 0 of STATUS is BUSY (10_state.md R25). -/
theorem statusWord_bit_zero (f : Status) : (statusWord f).getLsbD 0 = f.busy := by
  rw [statusWord, BitVec.getLsbD_append]
  simp

/-- WAIT's access is a read of STATUS, and it stays while BUSY reads 1. -/
theorem hostStep_wait {s : State} {ts : List HostTask} (hscript : s.script = .stmt .wait :: ts) :
    hostStep s =
      withHost s (if s.status.busy then .stmt .wait :: ts else ts) (statusWord s.status :: s.reads) := by
  have hread : memRead s (regAddr .status) = statusWord s.status := rfl
  rw [hostStep_read hscript rfl, hread, taskRest, statusWord_bit_zero]
  cases s.status.busy <;> rfl

/-- While its command is pending and the host has turns, WAIT polls and nothing else happens. -/
theorem wait_polls {s : State} (hinv : StateInv s) (hpending : s.pending.isSome = true) {ts : List HostTask}
    (hscript : s.script = .stmt .wait :: ts) {k : Nat} (hturns : s.turns = List.replicate k .host) :
    ∃ u, stepMany k s = .next u ∧ StateInv u ∧ u.pending = s.pending ∧ u.script = .stmt .wait :: ts ∧ u.turns = [] := by
  induction k generalizing s with
  | zero => exact ⟨s, rfl, hinv, rfl, hscript, hturns⟩
  | succ k ih =>
    have hturn : nextAgent s = some .host := by simp [nextAgent, hturns, List.replicate_succ]
    have hbusy : (takeTurn s).status.busy = true := hinv.busy.trans hpending
    have hstep := (step_valid hinv.params).trans (agentStep_host hturn)
    have hnext := everyStepKeepsTheInvariant _ _ hinv hstep
    rw [hostStep_wait (s := takeTurn s) hscript, if_pos hbusy] at hstep hnext
    obtain ⟨u, hrun, hrest⟩ := ih hnext hpending rfl (by simp [withHost, hturns, List.replicate_succ])
    exact ⟨u, (stepMany_succ hstep k).trans hrun, hrest⟩

/-- The codec's turn with a command pending commits one result, of a legal word or of an illegal one (10_state.md R33). -/
theorem step_commits {s : State} (hparams : paramsValid s.params = true) (hpending : s.pending.isSome = true)
    (hturn : nextAgent s = some .codec) : ∃ r, step s = .next (commit (takeTurn s) r) := by
  obtain ⟨q, hq⟩ := Option.isSome_iff_exists.mp hpending
  rw [step_valid hparams, agentStep_codec hturn]
  cases hdecode : decodeWord q.cmd with
  | ok i => exact ⟨_, (codecStep_ok (s := takeTurn s) hq hdecode).trans (exec_pending hq)⟩
  | error e => exact ⟨.error _, codecStep_error (s := takeTurn s) hq hdecode⟩

/-- A commit ends the command, and leaves the host's side and the parameters. -/
theorem commit_ends (s : State) (r : Result) :
    (commit s r).pending = none ∧ (commit s r).status.busy = false ∧ (commit s r).status.done = true ∧
    (commit s r).params = s.params ∧ (commit s r).script = s.script ∧ (commit s r).turns = s.turns := by
  cases r <;> exact ⟨rfl, rfl, rfl, rfl, rfl, rfl⟩

/-- Settles O53: k polls, then the commit, and a last poll that reads BUSY 0. -/
theorem waitEndsAfterTheCommit : Obligations.WaitEndsAfterTheCommit := by
  unfold Obligations.WaitEndsAfterTheCommit
  intro s ts k hinv hpending hturns hscript
  obtain ⟨u, hpolls, huinv, hupending, huscript, huturns⟩ := wait_polls hinv hpending hscript hturns
  refine ⟨⟨u, hpolls, huscript, hupending⟩, ?_⟩
  have husome : u.pending.isSome = true := hupending ▸ hpending
  have hturn : nextAgent u = some .codec := by simp [nextAgent, huturns, husome]
  obtain ⟨r, hcommit⟩ := step_commits huinv.params husome hturn
  rw [takeTurn_of_nil huturns] at hcommit
  obtain ⟨hnone, hidle, hdone, hparams, hsame, hnoturns⟩ := commit_ends u r
  have hidleRun : HostRuns (commit u r) := ⟨hparams ▸ huinv.params, hnone, hnoturns.trans huturns⟩
  have hlast := hidleRun.step_eq (hsame.trans huscript)
  rw [hostStep_wait (hsame.trans huscript), if_neg (by simp [hidle])] at hlast
  have hrun := (stepMany_add hpolls 2).trans ((stepMany_succ hcommit 1).trans (stepMany_one hlast))
  exact ⟨_, hrun, rfl, hnone, hidle, hdone⟩

end Sys2Proof.Machine

/-! PROOF. The frame encoder and the catalog: what FRAME, B2T and SEND answer in each of their cases (40_frame_encoder.md
R102 to R105, R110), and the catalog's sequences as SEND of a one-byte frame (R106 to R108). -/

namespace Sys2Proof.Machine

/-- A next state that an instruction answers is the commit of its result. -/
theorem eq_commit_of_exec {i : Instr} {s t : State} {q : Snapshot} (hpending : s.pending = some q)
    (h : exec i s = .next t) : t = commit s (resultOf i s.params q) := by
  simpa [exec_pending hpending] using h.symm

/-! ### FRAME -/

theorem resultOf_frame_ready {s : State} {q : Snapshot} (h : Ready s q) :
    resultOf .frame s.params q = prepareFrame false q.input := withInput_ready h _

theorem prepareFrame_tooLong {xs : List Word} (h : 254 < xs.length) :
    prepareFrame false xs = .error ⟨.invalidInput, BitVec.ofNat 16 xs.length, []⟩ := by
  simp [prepareFrame, maxPayload, h, lenWord]

theorem prepareFrame_nonByte {xs : List Word} (hlen : xs.length ≤ 254) {k : Nat} (h : FirstNonByte xs k) :
    prepareFrame false xs = .error ⟨.invalidInput, BitVec.ofNat 16 k, []⟩ := by
  simp [prepareFrame, maxPayload, Nat.not_lt.mpr hlen, bytesOf_firstNonByte h]

/-- FRAME succeeds on byte payloads of at most 254 elements only, and returns their frame. -/
theorem prepareFrame_eq_ok {xs : List Word} {r : Success} (h : prepareFrame false xs = .ok r) :
    ∃ bs, xs = asElements bs ∧ bs.length ≤ 254 ∧ r = ⟨frameOf bs, 0#16⟩ := by
  have hlen : xs.length ≤ 254 := by
    by_contra hlong
    simp [prepareFrame_tooLong (Nat.lt_of_not_le hlong)] at h
  rcases bytes_or_firstNonByte xs with ⟨bs, rfl⟩ | ⟨k, hk⟩
  · rw [asElements_length] at hlen
    rw [prepareFrame_bytes hlen] at h
    exact ⟨bs, rfl, hlen, (Except.ok.inj h).symm⟩
  · simp [prepareFrame_nonByte hlen hk] at h

/-- Settles O4: one lemma for each outcome of R102. -/
theorem frameFollowsPrepareFrame : Obligations.FrameFollowsPrepareFrame := by
  unfold Obligations.FrameFollowsPrepareFrame
  refine ⟨decodeWord_encode .frame, fun s q hready => ⟨fun hlong => ?tooLong, fun k hlen hk => ?nonByte, ?bytes⟩⟩
  case tooLong =>
    have hresult := (resultOf_frame_ready hready).trans (prepareFrame_tooLong hlong)
    exact commitsErr_of_result hready.pending hresult (Nat.zero_lt_succ _)
  case nonByte =>
    have hresult := (resultOf_frame_ready hready).trans (prepareFrame_nonByte hlen hk)
    exact commitsErr_of_result hready.pending hresult (Nat.zero_lt_succ _)
  case bytes =>
    intro bs hbs hlen
    have hresult : resultOf .frame s.params q = succeed (frameOf bs) 0#16 := by
      rw [resultOf_frame_ready hready, hbs, prepareFrame_bytes hlen]
    exact commitsOk_of_result hready.pending hresult (by simp only [List.length_cons]; omega)

/-- Settles O45: a success of FRAME is `frameOf` of a payload short enough for its length byte. -/
theorem frameLengthByteIsTheFrameLength : Obligations.FrameLengthByteIsTheFrameLength := by
  unfold Obligations.FrameLengthByteIsTheFrameLength
  intro s t q hready hexec hsuccess
  obtain rfl := eq_commit_of_exec hready.pending hexec
  rw [resultOf_frame_ready hready] at hsuccess ⊢
  cases hresult : prepareFrame false q.input with
  | error f => simp [hresult, statusOnErr] at hsuccess
  | ok r =>
    obtain ⟨bs, hbs, hlen, rfl⟩ := prepareFrame_eq_ok hresult
    have hframe : (frameOf bs).length = bs.length + 1 := rfl
    obtain ⟨houtLen, hout⟩ := (commitOk_succeeds s ⟨frameOf bs, 0#16⟩ (by simp only [hframe]; omega)).out
    rw [hbs, asElements_length]
    refine ⟨?first, houtLen.trans hframe⟩
    calc ((commitOk s ⟨frameOf bs, 0#16⟩).outBuf.read 0).toNat
      _ = (zext16 (BitVec.ofNat 8 (bs.length + 1))).toNat := congrArg BitVec.toNat (hout 0)
      _ = bs.length + 1 := by rw [zext16_toNat, BitVec.toNat_ofNat]; omega

/-! ### B2T -/

theorem byteToTriplet_tooLarge (p : Params) {arg : Word} (h : 255 < arg.toNat) :
    byteToTriplet p arg = .error ⟨.invalidInput, arg, []⟩ := by
  have hlarge : 0xFF#16 < arg := h
  simp [byteToTriplet, byteOfArg, hlarge]

theorem byteToTriplet_byte (p : Params) (b : Byte) :
    byteToTriplet p (zext16 b) = succeed (noteTripletOf p b) 0#16 := by
  have hbyte : ¬ 0xFF#16 < zext16 b := by
    have hb := b.isLt
    rw [BitVec.lt_def, zext16_toNat, BitVec.toNat_ofNat]
    omega
  simp [byteToTriplet, byteOfArg, hbyte, lowByte_zext16, noteFlat_eq]

/-- Settles O6: ARG is above 0xFF, or the extension of a byte. -/
theorem b2tSplitsTheByte : Obligations.B2tSplitsTheByte := by
  unfold Obligations.B2tSplitsTheByte
  refine ⟨decodeWord_encode .b2t, fun s q hpending => ⟨fun hlarge => ?tooLarge, fun b hb => ?byte⟩⟩
  case tooLarge =>
    have hresult : resultOf .b2t s.params q = .error ⟨.invalidInput, q.arg, []⟩ :=
      byteToTriplet_tooLarge s.params hlarge
    exact commitsErr_of_result hpending hresult (Nat.zero_lt_succ _)
  case byte =>
    have hresult : resultOf .b2t s.params q = succeed (noteTripletOf s.params b) 0#16 := by
      rw [resultOf, hb]
      exact byteToTriplet_byte s.params b
    exact commitsOk_of_result hpending hresult (by simp [noteTripletOf])

/-! ### SEND -/

theorem resultOf_send_ready {s : State} {q : Snapshot} (h : Ready s q) :
    resultOf .send s.params q = prepareForSending s.params q.arg q.input := withInput_ready h _

theorem prepareForSending_noFrames (p : Params) (xs : List Word) :
    prepareForSending p 0#16 xs = .error ⟨.emptyCommand, 0#16, []⟩ := rfl

theorem prepareForSending_nonByte (p : Params) {frames : Word} (h : frames ≠ 0#16) {xs : List Word} {k : Nat}
    (hk : FirstNonByte xs k) :
    prepareForSending p frames xs = .error ⟨.invalidInput, BitVec.ofNat 16 k, []⟩ := by
  simp [prepareForSending, h, bytesOf_firstNonByte hk]

/-- R104 looks at the number of frames only to see whether it is 0. -/
theorem prepareForSending_congr (p : Params) {a b : Word} (h : a = 0#16 ↔ b = 0#16) (xs : List Word) :
    prepareForSending p a xs = prepareForSending p b xs := by
  simp only [prepareForSending, h]

/-- The transport sequence of a snapshot that fits in IN fits in OUT (00_scope.md R8). -/
theorem transportOf_fits {s : State} {q : Snapshot} (h : Ready s q) {bs : List Byte} (hbs : q.input = asElements bs) :
    (transportOf s.params bs).length ≤ s.params.capOut := by
  have hcap := capacities_of_valid h.params
  have hfits := h.fits
  have hlen : bs.length = q.inLen.toNat := by rw [← h.length, hbs, asElements_length]
  rw [transportOf_length]
  omega

/-- Settles O7: one lemma for each outcome of R104. -/
theorem sendBuildsTheTransportSequence : Obligations.SendBuildsTheTransportSequence := by
  unfold Obligations.SendBuildsTheTransportSequence
  refine ⟨decodeWord_encode .send, fun s q hready => ⟨fun hzero => ?noFrames, fun hsome => ⟨fun k hk => ?nonByte, ?bytes⟩⟩⟩
  case noFrames =>
    have hresult : resultOf .send s.params q = .error ⟨.emptyCommand, 0#16, []⟩ := by
      rw [resultOf_send_ready hready, hzero, prepareForSending_noFrames]
    exact commitsErr_of_result hready.pending hresult (Nat.zero_lt_succ _)
  case nonByte =>
    have hresult := (resultOf_send_ready hready).trans (prepareForSending_nonByte s.params hsome hk)
    exact commitsErr_of_result hready.pending hresult (Nat.zero_lt_succ _)
  case bytes =>
    intro bs hbs
    have hresult : resultOf .send s.params q = succeed (transportOf s.params bs) 0#16 := by
      rw [resultOf_send_ready hready, hbs, prepareForSending_bytes s.params hsome]
    have hfits := transportOf_fits hready hbs
    have hcap := capacities_of_valid hready.params
    exact ⟨transportOf_length s.params bs, commitsOk_of_result hready.pending hresult (by omega)⟩

/-- Settles O46: both commits are of the same result. -/
theorem sendDependsOnlyOnTheBytes : Obligations.SendDependsOnlyOnTheBytes := by
  unfold Obligations.SendDependsOnlyOnTheBytes
  intro s u s' u' q r hparams hs hu hlen hinput hframes hs' hu'
  obtain rfl := eq_commit_of_exec hs hs'
  obtain rfl := eq_commit_of_exec hu hu'
  have hresult : resultOf .send s.params q = resultOf .send u.params r :=
    calc withInput s.params q (prepareForSending s.params q.arg)
      _ = withInput s.params r (prepareForSending s.params q.arg) := withInput_congr hlen hinput _
      _ = withInput u.params r (prepareForSending u.params r.arg) := by
        rw [hparams, funext (prepareForSending_congr u.params hframes)]
  exact hresult ▸ commit_sameResult s u _

/-- Settles O44, by the two laws of grouping. -/
theorem groupAndFlatAreInverse : Obligations.GroupAndFlatAreInverse := by
  unfold Obligations.GroupAndFlatAreInverse
  exact ⟨fun _ hmod => flat_group3 hmod, group3_flat⟩

/-! ### The catalog -/

/-- A catalog entry is the transport sequence of the frame of its command byte (R106). -/
theorem catalog_eq_transportOf (p : Params) (commandId : Byte) :
    catalog p commandId = transportOf p [2#8, commandId] := wrapStream_preTransport p _

/-- An instruction whose result is a catalog entry commits that entry, whatever the operands. -/
theorem commitsOk_catalog {i : Instr} {s : State} {q : Snapshot} (commandId : Byte)
    (hpending : s.pending = some q) (hresult : resultOf i s.params q = succeed (catalog s.params commandId) 0#16) :
    CommitsOk i s (transportOf s.params [2#8, commandId]) 0#16 := by
  rw [catalog_eq_transportOf] at hresult
  exact commitsOk_of_result hpending hresult (by simp [transportOf_length])

/-- Settles O8: the entry is the transport sequence of FRAME([8]), which is what SEND of that frame returns. -/
theorem catSerReturnsItsSequence : Obligations.CatSerReturnsItsSequence := by
  unfold Obligations.CatSerReturnsItsSequence
  refine ⟨decodeWord_encode .catSer, fun s q hpending => commitsOk_catalog cmdGetSerialNumber hpending rfl, fun p => ?_⟩
  have hframe : prepareFrame false (asElements [cmdGetSerialNumber]) = succeed (frameOf [cmdGetSerialNumber]) 0#16 :=
    prepareFrame_bytes (by decide)
  have hsend := prepareForSending_bytes p (frames := 1#16) (by decide) (frameOf [cmdGetSerialNumber])
  exact ⟨_, _, hframe, hsend, catalog_eq_transportOf p cmdGetSerialNumber⟩

/-- Settles O9, from the catalog's transport sequence. -/
theorem catVoltReturnsItsSequence : Obligations.CatVoltReturnsItsSequence := by
  unfold Obligations.CatVoltReturnsItsSequence
  exact ⟨decodeWord_encode .catVolt, fun s q hpending => commitsOk_catalog cmdGetVoltage hpending rfl⟩

/-- Settles O10, from the catalog's transport sequence. -/
theorem catLedReturnsItsSequence : Obligations.CatLedReturnsItsSequence := by
  unfold Obligations.CatLedReturnsItsSequence
  exact ⟨decodeWord_encode .catLed, fun s q hpending => commitsOk_catalog cmdGetLedState hpending rfl⟩

end Sys2Proof.Machine

/-! PROOF. The frame decoder: what REASM, TRIM and DECODE answer in each of their cases (41_frame_decoder.md R131 to
R133), the bytes that a list of triplets carries (R130, R134), and the round trips through the encoder (R135 to R137). -/

namespace Sys2Proof.Machine

/-! ### The two classes of triplets, and the bytes a list of them carries -/

/-- R7 keeps the two markers out of the note triplets (R130). -/
theorem not_control_of_note {p : Params} (hp : paramsValid p = true) {t : Triplet} (hnote : NoteTriplet p t) :
    ¬ ControlTriplet p t := by
  obtain ⟨hband, -⟩ := (paramsValid_iff p).mp hp
  obtain ⟨h, l, hh, hl, rfl⟩ := (noteTriplet_iff_exists_nibbles p t).mp hnote
  obtain ⟨hstart, hstop⟩ := (outOfBand_iff p).mp hband h l hh hl
  exact not_or.mpr ⟨hstart.symm, hstop.symm⟩

/-- Settles O43: a note triplet is no marker, by R7. -/
theorem noTripletIsControlAndNote : Obligations.NoTripletIsControlAndNote := by
  unfold Obligations.NoTripletIsControlAndNote
  rintro p t hp ⟨hcontrol, hnote⟩
  exact not_control_of_note hp ((isNote_iff p t).mp hnote) ((isControl_iff p t).mp hcontrol)

/-- The bytes a list carries are those of the triplets left when the model's control triplets are taken out. -/
theorem carriedBytes_eq_map_filter (p : Params) (ts : List Triplet) :
    carriedBytes p ts = (ts.filter fun t => !isControl p t).map
      fun t => BitVec.ofNat 8 (16 * t.data1.toNat + t.data2.toNat) := by
  have hdropped (t : Triplet) : decide (t ≠ p.start ∧ t ≠ p.stop) = !isControl p t := by simp [isControl]
  simp only [carriedBytes, hdropped]

theorem carriedBytes_append (p : Params) (ts us : List Triplet) :
    carriedBytes p (ts ++ us) = carriedBytes p ts ++ carriedBytes p us := by
  simp [carriedBytes]

theorem carriedBytes_control {p : Params} {t : Triplet} (h : ControlTriplet p t) : carriedBytes p [t] = [] := by
  simp [carriedBytes_eq_map_filter, (isControl_iff p t).mpr h]

theorem carriedBytes_note {p : Params} (hp : paramsValid p = true) {t : Triplet} (h : NoteTriplet p t) :
    carriedBytes p [t] = [BitVec.ofNat 8 (16 * t.data1.toNat + t.data2.toNat)] := by
  have hcontrol : isControl p t = false := by
    simpa using mt (isControl_iff p t).mp (not_control_of_note hp h)
  simp [carriedBytes_eq_map_filter, hcontrol]

/-- A byte is 16 times its high nibble plus its low nibble. -/
theorem noteOf_nibbles (p : Params) (b : Byte) :
    BitVec.ofNat 8 (16 * (noteOf p b).data1.toNat + (noteOf p b).data2.toNat) = b := by
  apply BitVec.eq_of_toNat_eq
  simp only [noteOf, highNibble_eq, lowNibble_eq, BitVec.toNat_ofNat]
  omega

/-- The note triplets of a byte list carry that list. -/
theorem carriedBytes_map_noteOf {p : Params} (hp : paramsValid p = true) (bs : List Byte) :
    carriedBytes p (bs.map (noteOf p)) = bs := by
  induction bs with
  | nil => rfl
  | cons b bs ih =>
    rw [List.map_cons, ← List.singleton_append, carriedBytes_append, carriedBytes_note hp (noteOf_note p b),
      noteOf_nibbles, ih, List.singleton_append]

/-! ### The transport sequence decoded -/

/-- The triplets of the transport sequence of a byte list (40_frame_encoder.md R104). -/
def transportTriplets (p : Params) (bs : List Byte) : List Triplet := [p.start] ++ bs.map (noteOf p) ++ [p.stop]

theorem flat_transportTriplets (p : Params) (bs : List Byte) : flat (transportTriplets p bs) = transportOf p bs := by
  rw [← wrapStream_preTransport, wrapStream, group3_preTransport]
  rfl

theorem transportTriplets_legal (p : Params) (bs : List Byte) : LegalTriplets p (transportTriplets p bs) := by
  intro t ht
  simp only [transportTriplets, List.mem_append, List.mem_singleton, List.mem_map] at ht
  rcases ht with (rfl | ⟨b, -, rfl⟩) | rfl
  · exact .inl (.inl rfl)
  · exact .inr (noteOf_note p b)
  · exact .inl (.inr rfl)

/-- The markers carry no byte, and the note triplets between them carry the list. -/
theorem carriedBytes_transportTriplets {p : Params} (hp : paramsValid p = true) (bs : List Byte) :
    carriedBytes p (transportTriplets p bs) = bs := by
  rw [transportTriplets, carriedBytes_append, carriedBytes_append, carriedBytes_control (.inl rfl),
    carriedBytes_control (.inr rfl), carriedBytes_map_noteOf hp, List.nil_append, List.append_nil]

/-- Reassembly undoes the transport sequence (R136). -/
theorem reassemble_transportOf {p : Params} (hp : paramsValid p = true) (bs : List Byte) :
    reassemble p (asElements (transportOf p bs)) = succeed bs 0#16 := by
  rw [← flat_transportTriplets, reassemble_legal (transportTriplets_legal p bs), carriedBytes_transportTriplets hp]

/-! ### Commits of a snapshot that fits -/

theorem Ready.snapshotOk {s : State} {q : Snapshot} (h : Ready s q) : SnapshotOk s.params q := by
  rw [SnapshotOk, h.length, Nat.min_eq_left h.fits]

/-- With a snapshot that fits, every result is short enough for OUT_LEN. -/
theorem Ready.resultBytes_length_lt {s : State} {q : Snapshot} (h : Ready s q) (i : Instr) :
    (resultBytes (resultOf i s.params q)).length < 65536 := by
  have hcap := capacities_of_valid h.params
  have hfits := resultOf_fits h.params h.snapshotOk i
  omega

theorem Ready.commitsOk {i : Instr} {s : State} {q : Snapshot} (h : Ready s q) {out : List Byte} {res : Word}
    (hr : resultOf i s.params q = succeed out res) : CommitsOk i s out res :=
  commitsOk_of_result h.pending hr
    (hr ▸ h.resultBytes_length_lt i : (resultBytes (succeed out res)).length < 65536)

theorem Ready.commitsErr {i : Instr} {s : State} {q : Snapshot} (h : Ready s q) {code : ErrorCode} {ctx : Word}
    {msg : List Byte} (hr : resultOf i s.params q = .error ⟨code, ctx, msg⟩) : CommitsErr i s code.code ctx msg :=
  commitsErr_of_result h.pending hr
    (hr ▸ h.resultBytes_length_lt i : (resultBytes (.error ⟨code, ctx, msg⟩)).length < 65536)

theorem resultOf_reasm_ready {s : State} {q : Snapshot} (h : Ready s q) :
    resultOf .reasm s.params q = reassemble s.params q.input := withInput_ready h _

theorem resultOf_trim_ready {s : State} {q : Snapshot} (h : Ready s q) :
    resultOf .trim s.params q = validateAndTrim q.input := withInput_ready h _

theorem resultOf_decode_ready {s : State} {q : Snapshot} (h : Ready s q) :
    resultOf .decode s.params q = reassembleAndTrim s.params q.input := withInput_ready h _

/-- DECODE returns an error of REASM as it is (R133). -/
theorem reassembleAndTrim_of_error {p : Params} {xs : List Word} {f : Failure} (h : reassemble p xs = .error f) :
    reassembleAndTrim p xs = .error f := by
  simp only [reassembleAndTrim, h, error_bind]

/-- DECODE trims the stream that REASM returns (R133). -/
theorem reassembleAndTrim_of_succeed {p : Params} {xs : List Word} {bs : List Byte} {res : Word}
    (h : reassemble p xs = succeed bs res) : reassembleAndTrim p xs = validateAndTrim (asElements bs) := by
  simp only [reassembleAndTrim, h, succeed, ok_bind, asElements_eq]

/-- An error of the reassembly is what REASM and DECODE both commit. -/
theorem Ready.commitsErr_of_reassemble {i : Instr} (hi : i = .reasm ∨ i = .decode) {s : State} {q : Snapshot}
    (h : Ready s q) {code : ErrorCode} {ctx : Word} {msg : List Byte}
    (hr : reassemble s.params q.input = .error ⟨code, ctx, msg⟩) : CommitsErr i s code.code ctx msg := by
  rcases hi with rfl | rfl
  · exact h.commitsErr ((resultOf_reasm_ready h).trans hr)
  · exact h.commitsErr ((resultOf_decode_ready h).trans (reassembleAndTrim_of_error hr))

/-! ### REASM -/

/-- Settles O11: one lemma for each outcome of R131. -/
theorem reasmRecombinesNoteTriplets : Obligations.ReasmRecombinesNoteTriplets := by
  unfold Obligations.ReasmRecombinesNoteTriplets
  refine ⟨decodeWord_encode .reasm, fun s q hready => ⟨fun k hk => ?nonByte, fun es hes hmod => ?truncated,
    fun ts hts => ⟨fun j hj => ?badTriplet, fun hlegal => ?legal⟩⟩⟩
  case nonByte => exact hready.commitsErr_of_reassemble (.inl rfl) (reassemble_nonByte s.params hk)
  case truncated => exact hready.commitsErr_of_reassemble (.inl rfl) (hes ▸ reassemble_truncated s.params hmod)
  case badTriplet => exact hready.commitsErr_of_reassemble (.inl rfl) (hts ▸ reassemble_badTriplet hj)
  case legal => exact hready.commitsOk ((resultOf_reasm_ready hready).trans (hts ▸ reassemble_legal hlegal))

/-- Settles O47: both commits are of the bytes that the triplets left carry. -/
theorem controlTripletsAreDroppedAnywhere : Obligations.ControlTripletsAreDroppedAnywhere := by
  unfold Obligations.ControlTripletsAreDroppedAnywhere
  intro s u q r ts us hparams hs hu hq hr hts hus hfilter
  have hcarried : carriedBytes s.params ts = carriedBytes s.params us := by
    rw [carriedBytes_eq_map_filter, carriedBytes_eq_map_filter, hfilter]
  have hresult : resultOf .reasm s.params q = succeed (carriedBytes s.params ts) 0#16 := by
    rw [resultOf_reasm_ready hs, hq, reassemble_legal hts]
  have hresult' : resultOf .reasm u.params r = succeed (carriedBytes s.params ts) 0#16 := by
    rw [resultOf_reasm_ready hu, ← hparams, hr, reassemble_legal hus, hcarried]
  refine ⟨_, _, exec_pending hs.pending, exec_pending hu.pending, ?_⟩
  rw [hresult, hresult']
  exact ⟨rfl, commit_sameResult s u _⟩

/-- Settles O48: the transport sequence of one byte. -/
theorem singleTripletRecovery : Obligations.SingleTripletRecovery := by
  unfold Obligations.SingleTripletRecovery
  intro s q b hready hq
  have hresult : resultOf .reasm s.params q = succeed [b] 0#16 := by
    rw [resultOf_reasm_ready hready, hq, reassemble_transportOf hready.params]
  exact hready.commitsOk hresult

/-! ### TRIM -/

/-- Settles O12: one lemma for each outcome of R132. -/
theorem trimKeepsTheDeclaredLength : Obligations.TrimKeepsTheDeclaredLength := by
  unfold Obligations.TrimKeepsTheDeclaredLength
  refine ⟨decodeWord_encode .trim, fun s q hready => ?_⟩
  have htrim := resultOf_trim_ready hready
  refine ⟨fun k hk => ?nonByte, fun hnil => ?empty, fun len bs hbs => ⟨fun hshort => ?short, fun henough => ?enough⟩⟩
  case nonByte => exact hready.commitsErr (htrim.trans (validateAndTrim_nonByte hk))
  case empty => exact hready.commitsErr (htrim.trans (hnil ▸ validateAndTrim_nil))
  case short => exact hready.commitsErr (htrim.trans (hbs ▸ validateAndTrim_short hshort))
  case enough => exact hready.commitsOk (htrim.trans (hbs ▸ validateAndTrim_enough henough))

/-! ### DECODE -/

/-- Settles O13: REASM's errors, and TRIM's outcomes for the bytes the triplets carry. -/
theorem decodeIsReasmThenTrim : Obligations.DecodeIsReasmThenTrim := by
  unfold Obligations.DecodeIsReasmThenTrim
  refine ⟨decodeWord_encode .decode, fun s q hready => ⟨fun k hk => ?nonByte, fun es hes hmod => ?truncated,
    fun ts hts => ⟨fun j hj => ?badTriplet, fun hlegal => ?legal⟩⟩⟩
  case nonByte => exact hready.commitsErr_of_reassemble (.inr rfl) (reassemble_nonByte s.params hk)
  case truncated => exact hready.commitsErr_of_reassemble (.inr rfl) (hes ▸ reassemble_truncated s.params hmod)
  case badTriplet => exact hready.commitsErr_of_reassemble (.inr rfl) (hts ▸ reassemble_badTriplet hj)
  case legal =>
    have htrim {bs : List Byte} (hbs : carriedBytes s.params ts = bs) :
        resultOf .decode s.params q = validateAndTrim (asElements bs) := by
      rw [resultOf_decode_ready hready, hts, reassembleAndTrim_of_succeed (reassemble_legal hlegal), hbs]
    refine ⟨fun hnil => ?empty, fun len bs hbs => ⟨fun hshort => ?short, fun henough => ?enough⟩⟩
    case empty => exact hready.commitsErr ((htrim hnil).trans validateAndTrim_nil)
    case short => exact hready.commitsErr ((htrim hbs).trans (validateAndTrim_short hshort))
    case enough => exact hready.commitsOk ((htrim hbs).trans (validateAndTrim_enough henough))

/-! ### The round trips through the encoder -/

/-- A frame whose first byte is its length (30_encoding.md R71). -/
def HoldsItsLength (frame : List Byte) : Prop :=
  ∃ rest, frame = BitVec.ofNat 8 frame.length :: rest ∧ frame.length ≤ 255

theorem frameOf_holdsItsLength {payload : List Byte} (h : payload.length ≤ 254) : HoldsItsLength (frameOf payload) :=
  ⟨payload, rfl, Nat.succ_le_succ h⟩

/-- The trim keeps the first frame of a stream and discards what follows it. -/
theorem validateAndTrim_append {frame : List Byte} (h : HoldsItsLength frame) (rest : List Byte) :
    validateAndTrim (asElements (frame ++ rest)) = succeed frame 0#16 := by
  obtain ⟨payload, hframe, hlen⟩ := h
  have hdeclared : (BitVec.ofNat 8 frame.length).toNat = frame.length := by
    rw [BitVec.toNat_ofNat]
    omega
  have hstream : BitVec.ofNat 8 frame.length :: (payload ++ rest) = frame ++ rest := by
    rw [← List.cons_append, ← hframe]
  have henough : (BitVec.ofNat 8 frame.length).toNat ≤ (BitVec.ofNat 8 frame.length :: (payload ++ rest)).length := by
    rw [hdeclared, hstream, List.length_append]
    omega
  have htrim := validateAndTrim_enough henough
  rwa [hdeclared, hstream, List.take_left] at htrim

/-- DECODE of a transport sequence returns the first frame of its stream (R135). -/
theorem Ready.decode_commitsOk_first {s : State} {q : Snapshot} (h : Ready s q) {frame rest : List Byte}
    (hframe : HoldsItsLength frame) (hq : q.input = asElements (transportOf s.params (frame ++ rest))) :
    CommitsOk .decode s frame 0#16 := by
  have hresult : resultOf .decode s.params q = succeed frame 0#16 := by
    rw [resultOf_decode_ready h, hq, reassembleAndTrim_of_succeed (reassemble_transportOf h.params _),
      validateAndTrim_append hframe]
  exact h.commitsOk hresult

/-- A host that reads the result back gets the bytes OUT holds, as elements. -/
theorem outWords_of_outHolds {t : State} {bs : List Byte} (h : OutHolds t bs) : outWords t = asElements bs := by
  obtain ⟨hlen, hentry⟩ := h
  apply List.ext_getElem
  · simp [outWords, hlen]
  · intro i _ hi
    have hi' : i < bs.length := by simpa using hi
    simp [outWords, asElements, hentry, hi']

/-- The words read back after the commit of a success. -/
theorem Ready.outWords_of_exec {i : Instr} {s t : State} {q : Snapshot} (h : Ready s q) {out : List Byte} {res : Word}
    (hr : resultOf i s.params q = succeed out res) (hexec : exec i s = .next t) : outWords t = asElements out := by
  obtain ⟨u, hu, hsuccess⟩ := h.commitsOk hr
  obtain rfl : u = t := by simpa [hu] using hexec
  exact outWords_of_outHolds hsuccess.out

theorem Ready.outWords_of_frame {s t : State} {q : Snapshot} (h : Ready s q) {payload : List Byte}
    (hq : q.input = asElements payload) (hlen : payload.length ≤ 254) (hexec : exec .frame s = .next t) :
    outWords t = asElements (frameOf payload) :=
  h.outWords_of_exec ((resultOf_frame_ready h).trans (hq ▸ prepareFrame_bytes hlen)) hexec

theorem Ready.outWords_of_send {s t : State} {q : Snapshot} (h : Ready s q) {bs : List Byte}
    (hq : q.input = asElements bs) (harg : q.arg ≠ 0#16) (hexec : exec .send s = .next t) :
    outWords t = asElements (transportOf s.params bs) :=
  h.outWords_of_exec ((resultOf_send_ready h).trans (hq ▸ prepareForSending_bytes s.params harg bs)) hexec

/-- Settles O49: SEND's sequence carries the frames one after the other, and the trim keeps the first. -/
theorem multiFrameDecodeReturnsTheFirst : Obligations.MultiFrameDecodeReturnsTheFirst := by
  unfold Obligations.MultiFrameDecodeReturnsTheFirst
  intro s1 t1 s2 q1 q2 first others h1 h2 hparams hframes hq1 _ hsome hsend hq2
  have hfirst : HoldsItsLength first := hframes first List.mem_cons_self
  have hinput : q2.input = asElements (transportOf s2.params (first ++ others.flatten)) := by
    rw [hq2, h1.outWords_of_send hq1 hsome hsend, hparams, List.flatten_cons]
  exact h2.decode_commitsOk_first hfirst hinput

/-- Settles O50: the frame is the whole stream of SEND's sequence, so the trim discards nothing. -/
theorem frameSendDecodeRoundTrip : Obligations.FrameSendDecodeRoundTrip := by
  unfold Obligations.FrameSendDecodeRoundTrip
  intro s1 t1 s2 t2 s3 q1 q2 q3 payload h1 h2 h3 hparams2 hparams3 hq1 hlen hframe hq2 harg hsend hq3
  have hframed : outWords t1 = asElements (frameOf payload) := h1.outWords_of_frame hq1 hlen hframe
  have hsome : q2.arg ≠ 0#16 := by
    rw [harg]
    decide
  have hsent : outWords t2 = asElements (transportOf s2.params (frameOf payload)) :=
    h2.outWords_of_send (hq2.trans hframed) hsome hsend
  have hinput : q3.input = asElements (transportOf s3.params (frameOf payload ++ [])) := by
    rw [hq3, hsent, hparams2, hparams3, List.append_nil]
  obtain ⟨t3, hdecode, hsuccess⟩ := h3.decode_commitsOk_first (frameOf_holdsItsLength hlen) hinput
  refine ⟨t3, hdecode, by rw [hsuccess.status], ?_, hframed⟩
  rw [outWords_of_outHolds hsuccess.out, hframed]

end Sys2Proof.Machine

/-! PROOF. The field codec: the message check that three coders share (42_field_codec.md R160), what DSER, DLED, DMV, EMV
and DMVP answer in each of their cases (R161 to R165), and the millivolt round trip (R166). -/

namespace Sys2Proof.Machine

/-! ### The message check -/

/-- The instruction checks the message in IN (R160), then answers what `decode` makes of its bytes. -/
def ChecksThen (i : Instr) (len : Nat) (command : Byte) (decode : List Byte → Result) : Prop :=
  ∀ p q, resultOf i p q = withInput p q fun xs => checkMsg xs len command >>= decode

theorem ChecksThen.checksMessage {i : Instr} {len : Nat} {command : Byte} {decode : List Byte → Result}
    (h : ChecksThen i len command decode) : ChecksMessage i len command := by
  intro s q hready
  have hcommits {code : ErrorCode} {ctx : Word} {msg : List Byte}
      (hcheck : checkMsg q.input len command = .error ⟨code, ctx, msg⟩) : CommitsErr i s code.code ctx msg :=
    hready.commitsErr (by rw [h, withInput_ready hready, hcheck, error_bind])
  refine ⟨fun k hk => ?nonByte, fun m hm => ⟨fun hlen => ?length, fun hlen hcommand => ?command⟩⟩
  case nonByte => exact hcommits (checkMsg_nonByte hk len command)
  case length => exact hcommits (hm ▸ checkMsg_length hlen command)
  case command => exact hcommits (hm ▸ checkMsg_command hlen hcommand)

theorem ChecksThen.resultOf_passes {i : Instr} {len : Nat} {command : Byte} {decode : List Byte → Result}
    (h : ChecksThen i len command decode) {s : State} {q : Snapshot} (hready : Ready s q) {m : List Byte}
    (hm : q.input = asElements m) (hlen : m.length = len) (hcommand : m.getD 1 0#8 = command) :
    resultOf i s.params q = decode m := by
  rw [h, withInput_ready hready, hm, checkMsg_passes hlen hcommand, ok_bind]

/-! ### DSER -/

theorem dser_checksThen :
    ChecksThen .dser 10 8#8 fun m => checkAscii m 2 (m.drop 2) >>= fun _ => succeed (m.drop 2) 0#16 :=
  fun _ _ => rfl

theorem getD_drop_two (m : List Byte) (j : Nat) : (m.drop 2).getD j 0#8 = m.getD (2 + j) 0#8 := by
  simp [List.getD_eq_getElem?_getD]

/-- The loop over the payload stops at the first message index from 2 on whose byte is above 0x7F. -/
theorem checkAscii_payload_bad {m : List Byte} {k : Nat} (hk : 2 ≤ k) (hbad : 127 < (m.getD k 0#8).toNat)
    (hfirst : ∀ j, 2 ≤ j → j < k → (m.getD j 0#8).toNat ≤ 127) :
    checkAscii m 2 (m.drop 2) = .error ⟨.invalidSerialCharacter, BitVec.ofNat 16 k, m⟩ := by
  obtain ⟨n, rfl⟩ := Nat.exists_eq_add_of_le hk
  refine checkAscii_bad m ?_ (fun j hj => ?_) 2
  · rwa [getD_drop_two]
  · rw [getD_drop_two]
    exact hfirst (2 + j) (by omega) (by omega)

theorem checkAscii_payload_ok {m : List Byte} (hascii : ∀ k, 2 ≤ k → (m.getD k 0#8).toNat ≤ 127) :
    checkAscii m 2 (m.drop 2) = .ok () := by
  refine checkAscii_ok m (fun b hb => ?_) 2
  obtain ⟨j, hj, rfl⟩ := List.getElem_of_mem hb
  have hbound := hascii (2 + j) (by omega)
  rwa [← getD_drop_two, List.getD_eq_getElem _ _ hj] at hbound

/-- Settles O14: past the message check, the loop over the payload decides. -/
theorem dserReturnsTheSerialCodes : Obligations.DserReturnsTheSerialCodes := by
  unfold Obligations.DserReturnsTheSerialCodes
  refine ⟨decodeWord_encode .dser, dser_checksThen.checksMessage, fun s q m hready hm hlen hcommand => ?_⟩
  have hresult := dser_checksThen.resultOf_passes hready hm hlen hcommand
  refine ⟨fun k hk hbad hfirst => ?badCharacter, fun hascii => ?ascii⟩
  case badCharacter => exact hready.commitsErr (by rw [hresult, checkAscii_payload_bad hk hbad hfirst, error_bind])
  case ascii => exact hready.commitsOk (by rw [hresult, checkAscii_payload_ok hascii, ok_bind])

/-! ### DLED -/

theorem dled_checksThen :
    ChecksThen .dled 3 15#8 fun m =>
      raiseIf (decide (1#8 < m.getD 2 0#8)) .invalidLedValue (zext16 (m.getD 2 0#8)) m >>= fun _ =>
        succeed [] (zext16 (m.getD 2 0#8)) :=
  fun _ _ => rfl

/-- Settles O15: past the message check, the comparison of the LED byte with 1 decides. -/
theorem dledReturnsTheLedState : Obligations.DledReturnsTheLedState := by
  unfold Obligations.DledReturnsTheLedState
  refine ⟨decodeWord_encode .dled, dled_checksThen.checksMessage, fun s q m0 v hready hm => ?_⟩
  have hresult := dled_checksThen.resultOf_passes hready hm rfl rfl
  simp only [List.getD_cons_succ, List.getD_cons_zero] at hresult
  refine ⟨fun hlarge => ?invalid, fun hsmall => ?valid⟩
  case invalid =>
    have habove : 1#8 < v := hlarge
    exact hready.commitsErr (hresult.trans (by rw [decide_eq_true habove, raiseIf_true, error_bind, zext16]))
  case valid =>
    have hnot : ¬ 1#8 < v := Nat.not_lt.mpr hsmall
    exact hready.commitsOk (hresult.trans (by rw [decide_eq_false hnot, raiseIf_false, ok_bind, zext16]))

/-! ### DMV -/

theorem dmv_checksThen :
    ChecksThen .dmv 4 18#8 fun m => succeed [] (joinBytes (m.getD 2 0#8) (m.getD 3 0#8)) :=
  fun _ _ => rfl

/-- Settles O16: past the message check, the join of the two bytes by arithmetic. -/
theorem dmvReturnsMillivolts : Obligations.DmvReturnsMillivolts := by
  unfold Obligations.DmvReturnsMillivolts
  refine ⟨decodeWord_encode .dmv, dmv_checksThen.checksMessage, fun s q m0 high low hready hm => ?_⟩
  have hresult := dmv_checksThen.resultOf_passes hready hm rfl rfl
  simp only [List.getD_cons_succ, List.getD_cons_zero, joinBytes_eq] at hresult
  exact hready.commitsOk hresult

/-! ### EMV -/

/-- EMV answers the two bytes of ARG, whatever IN and IN_LEN hold (R164). -/
theorem emv_commitsOk {s : State} {q : Snapshot} (hpending : s.pending = some q) :
    CommitsOk .emv s [highByte q.arg, lowByte (q.arg &&& 0xFF#16)] 0#16 := by
  have hresult : resultOf .emv s.params q = succeed [highByte q.arg, lowByte (q.arg &&& 0xFF#16)] 0#16 := rfl
  exact commitsOk_of_result hpending hresult (by simp)

/-- Settles O17: the two bytes of ARG by arithmetic. -/
theorem emvSplitsMillivolts : Obligations.EmvSplitsMillivolts := by
  unfold Obligations.EmvSplitsMillivolts
  refine ⟨decodeWord_encode .emv, fun s q hpending => ?_⟩
  rw [← highByte_eq, ← lowByte_and_eq]
  exact emv_commitsOk hpending

/-! ### DMVP -/

theorem resultOf_dmvp_otherLength {s : State} {q : Snapshot} (h : Ready s q) (hlen : q.inLen ≠ 2#16) :
    resultOf .dmvp s.params q = .error ⟨.malformedRequest, q.inLen, []⟩ := by
  rw [resultOf, withTwoInputs, withInput_ready h, decide_eq_true hlen, raiseIf_true, error_bind]

theorem resultOf_dmvp_twoElements {s : State} {q : Snapshot} (h : Ready s q) (hlen : q.input.length = 2) :
    resultOf .dmvp s.params q = decodeMillivolts q.input := by
  have hinLen : ¬ q.inLen ≠ 2#16 := not_not.mpr (BitVec.eq_of_toNat_eq (h.length.symm.trans hlen))
  rw [resultOf, withTwoInputs, withInput_ready h, decide_eq_false hinLen, raiseIf_false, ok_bind]

theorem decodeMillivolts_nonByte {xs : List Word} {k : Nat} (h : FirstNonByte xs k) :
    decodeMillivolts xs = .error ⟨.invalidInput, BitVec.ofNat 16 k, []⟩ := by
  rw [decodeMillivolts, bytesOf_firstNonByte h, error_bind]

theorem decodeMillivolts_bytes (high low : Byte) :
    decodeMillivolts (asElements [high, low]) = succeed [] (joinBytes high low) := by
  rw [decodeMillivolts, bytesOf_asElements]
  rfl

/-- DMVP of two bytes answers their join (R165). -/
theorem Ready.dmvp_commitsOk {s : State} {q : Snapshot} (h : Ready s q) {high low : Byte}
    (hq : q.input = asElements [high, low]) : CommitsOk .dmvp s [] (joinBytes high low) := by
  have hlen : q.input.length = 2 := by rw [hq, asElements_length]; rfl
  exact h.commitsOk (by rw [resultOf_dmvp_twoElements h hlen, hq, decodeMillivolts_bytes])

/-- An element that is a byte is the extension of its low 8 bits (10_state.md R24). -/
theorem zext16_lowByte {w : Word} (h : w.toNat ≤ 255) : zext16 (lowByte w) = w := by
  apply BitVec.eq_of_toNat_eq
  rw [zext16_toNat, lowByte, BitVec.toNat_setWidth]
  omega

theorem lowByte_toNat {w : Word} (h : w.toNat ≤ 255) : (lowByte w).toNat = w.toNat := by
  rw [← zext16_toNat, zext16_lowByte h]

/-- Settles O18: IN_LEN, then the two elements in order. -/
theorem dmvpJoinsTwoBytes : Obligations.DmvpJoinsTwoBytes := by
  unfold Obligations.DmvpJoinsTwoBytes
  refine ⟨decodeWord_encode .dmvp, fun s q hready => ⟨fun hlen => ?otherLength, fun high low hq => ?twoElements⟩⟩
  case otherLength => exact hready.commitsErr (resultOf_dmvp_otherLength hready hlen)
  case twoElements =>
    have hresult : resultOf .dmvp s.params q = decodeMillivolts q.input :=
      resultOf_dmvp_twoElements hready (by rw [hq]; rfl)
    have hnonByte {k : Nat} (hk : FirstNonByte q.input k) : CommitsErr .dmvp s 7#4 (BitVec.ofNat 16 k) [] :=
      hready.commitsErr (hresult.trans (decodeMillivolts_nonByte hk))
    refine ⟨fun hhigh => ?highNonByte, fun hhigh hlow => ?lowNonByte, fun hhigh hlow => ?bytes⟩
    case highNonByte => exact hnonByte (hq ▸ ⟨hhigh, fun _ hj => absurd hj (Nat.not_lt_zero _)⟩)
    case lowNonByte =>
      refine hnonByte (k := 1) (hq ▸ ⟨hlow, fun j hj => ?_⟩)
      obtain rfl := Nat.lt_one_iff.mp hj
      exact hhigh
    case bytes =>
      have hbytes : q.input = asElements [lowByte high, lowByte low] := by
        rw [hq, asElements_eq, List.map_cons, List.map_cons, List.map_nil, zext16_lowByte hhigh, zext16_lowByte hlow]
      rw [← lowByte_toNat hhigh, ← lowByte_toNat hlow, ← joinBytes_eq]
      exact hready.dmvp_commitsOk hbytes

/-! ### The millivolt round trip -/

theorem joinBytes_toNat (high low : Byte) : (joinBytes high low).toNat = 256 * high.toNat + low.toNat := by
  rw [joinBytes_eq, BitVec.toNat_ofNat]
  omega

/-- Joining undoes splitting. -/
theorem joinBytes_split (mv : Word) : joinBytes (highByte mv) (lowByte (mv &&& 0xFF#16)) = mv := by
  apply BitVec.eq_of_toNat_eq
  rw [joinBytes_toNat, highByte_eq, lowByte_and_eq, BitVec.toNat_ofNat, BitVec.toNat_ofNat]
  omega

/-- Splitting undoes joining, at the high byte. -/
theorem highByte_joinBytes (high low : Byte) : highByte (joinBytes high low) = high := by
  apply BitVec.eq_of_toNat_eq
  rw [highByte_eq, joinBytes_toNat, BitVec.toNat_ofNat]
  omega

/-- Splitting undoes joining, at the low byte. -/
theorem lowByte_joinBytes (high low : Byte) : lowByte (joinBytes high low &&& 0xFF#16) = low := by
  apply BitVec.eq_of_toNat_eq
  rw [lowByte_and_eq, joinBytes_toNat, BitVec.toNat_ofNat]
  omega

/-- The next state an instruction answers is the one its success speaks of. -/
theorem CommitsOk.succeeds {i : Instr} {s t : State} {out : List Byte} {res : Word} (h : CommitsOk i s out res)
    (hexec : exec i s = .next t) : Succeeds s t out res := by
  obtain ⟨u, hu, hsuccess⟩ := h
  obtain rfl : u = t := by simpa [hu] using hexec
  exact hsuccess

/-- Settles O51: each command's result is the other's operand, and splitting and joining undo each other. -/
theorem millivoltRoundTrip : Obligations.MillivoltRoundTrip := by
  unfold Obligations.MillivoltRoundTrip
  refine ⟨fun s1 t1 s2 q1 q2 hpending hready hexec hinput => ?dmvpOfEmv,
    fun s1 t1 s2 q1 q2 high low hready hq1 hexec hpending harg => ?emvOfDmvp⟩
  case dmvpOfEmv =>
    have hout := outWords_of_outHolds ((emv_commitsOk hpending).succeeds hexec).out
    have hcommits := hready.dmvp_commitsOk (hinput.trans hout)
    rwa [joinBytes_split] at hcommits
  case emvOfDmvp =>
    have hres : t1.res = joinBytes high low := ((hready.dmvp_commitsOk hq1).succeeds hexec).res
    have hcommits := emv_commitsOk hpending
    rwa [harg, hres, highByte_joinBytes, lowByte_joinBytes] at hcommits

end Sys2Proof.Machine

/-! PROOF. Which errors each command can report (60_exceptions.md R200, R201, R204, R215), the one access that clears a report
(R206), and that nothing stops the machine (R207). -/

namespace Sys2Proof.Machine

/-! ### The errors a computation can end with -/

/-- Every error the computation ends with has one of these codes. -/
def ErrorsAmong {α : Type} (allowed : List ErrorCode) : Except Failure α → Prop
  | .ok _ => True
  | .error f => f.code ∈ allowed

section Rules

variable {α β : Type} {allowed : List ErrorCode}

@[simp] theorem errorsAmong_ok {a : α} : ErrorsAmong allowed (.ok a) := trivial

@[simp] theorem errorsAmong_succeed {out : List Byte} {res : Word} : ErrorsAmong allowed (succeed out res) := trivial

@[simp] theorem errorsAmong_error {f : Failure} :
    ErrorsAmong allowed (.error f : Except Failure α) ↔ f.code ∈ allowed := Iff.rfl

theorem ErrorsAmong.mono {allowed' : List ErrorCode} {x : Except Failure α} (h : ErrorsAmong allowed x)
    (hsub : allowed ⊆ allowed') : ErrorsAmong allowed' x := by
  cases x with
  | ok a => trivial
  | error f => exact hsub h

/-- The first error wins: one of the first stage, or one of the stage after it. -/
theorem ErrorsAmong.bind {x : Except Failure α} {k : α → Except Failure β} (hx : ErrorsAmong allowed x)
    (hk : ∀ a, ErrorsAmong allowed (k a)) : ErrorsAmong allowed (x >>= k) := by
  cases x with
  | ok a => exact hk a
  | error f => exact hx

theorem ErrorsAmong.raiseIf {c : Bool} {code : ErrorCode} (hcode : code ∈ allowed) (ctx : Word) (msg : List Byte) :
    ErrorsAmong allowed (raiseIf c code ctx msg) := by
  cases c with
  | true => exact hcode
  | false => trivial

/-- The byte check raises InvalidInput alone (10_state.md R24). -/
theorem ErrorsAmong.bytesOf (hinvalid : .invalidInput ∈ allowed) (xs : List Word) : ErrorsAmong allowed (bytesOf xs) := by
  rcases bytes_or_firstNonByte xs with ⟨bs, rfl⟩ | ⟨k, hk⟩
  · rw [bytesOf_asElements]; trivial
  · rw [bytesOf_firstNonByte hk]; exact hinvalid

/-- The serial check raises InvalidSerialCharacter alone (42_field_codec.md R161). -/
theorem ErrorsAmong.checkAscii (hserial : .invalidSerialCharacter ∈ allowed) (m : List Byte) (k : Nat) (bs : List Byte) :
    ErrorsAmong allowed (checkAscii m k bs) := by
  induction bs generalizing k with
  | nil => trivial
  | cons b bs ih => exact (raiseIf hserial _ _).bind fun _ => ih (k + 1)

/-- R204's check of IN_LEN adds MalformedRequest. -/
theorem ErrorsAmong.withInput {p : Params} {q : Snapshot} {op : List Word → Result}
    (h : ErrorsAmong allowed (op q.input)) : ErrorsAmong (.malformedRequest :: allowed) (withInput p q op) :=
  (raiseIf List.mem_cons_self _ _).bind fun _ => h.mono (List.subset_cons_self _ _)

end Rules

/-! ### The errors of each operation -/

theorem prepareFrame_ordered_errors (xs : List Word) : ErrorsAmong [.invalidInput] (prepareFrame false xs) := by
  simp only [prepareFrame, raiseIf_false, ok_bind]
  exact (ErrorsAmong.raiseIf (by simp) _ _).bind fun _ => (ErrorsAmong.bytesOf (by simp) xs).bind fun _ => trivial

theorem byteToTriplet_errors (p : Params) (arg : Word) : ErrorsAmong [.invalidInput] (byteToTriplet p arg) := by
  simp only [byteToTriplet, byteOfArg, bind_assoc]
  exact (ErrorsAmong.raiseIf (by simp) _ _).bind fun _ => trivial

/-- MalformedTripletAlignment is not among them: the pre-transport stream has three elements a byte (R215). -/
theorem prepareForSending_errors (p : Params) (frames : Word) (xs : List Word) :
    ErrorsAmong [.emptyCommand, .invalidInput] (prepareForSending p frames xs) := by
  refine (ErrorsAmong.raiseIf (by simp) _ _).bind fun _ => (ErrorsAmong.bytesOf (by simp) xs).bind fun bs => ?_
  have haligned : decide ((preTransport p bs).length % 3 ≠ 0) = false := by simp [preTransport_length_mod]
  simp only [haligned, raiseIf_false, ok_bind, errorsAmong_succeed]

/-- REASM of bytes no longer raises InvalidInput (41_frame_decoder.md R131). -/
theorem reassemble_bytes_errors (p : Params) (es : List Byte) :
    ErrorsAmong [.truncatedMidiMessage, .malformedNoteTriplet] (reassemble p (asElements es)) := by
  by_cases hmod : es.length % 3 = 0
  case neg => simp [reassemble_truncated p hmod]
  rw [← flat_group3 hmod]
  rcases legal_or_bad p (group3 es) with hlegal | ⟨j, hbad⟩
  · simp [reassemble_legal hlegal]
  · simp [reassemble_badTriplet hbad]

/-- TRIM of bytes no longer raises InvalidInput (R132). -/
theorem validateAndTrim_bytes_errors (bs : List Byte) :
    ErrorsAmong [.invalidProtocolMessageLength] (validateAndTrim (asElements bs)) := by
  rw [validateAndTrim, bytesOf_asElements, ok_bind]
  cases bs with
  | nil => exact List.mem_cons_self
  | cons len bs => exact (ErrorsAmong.raiseIf List.mem_cons_self _ _).bind fun _ => trivial

/-- DECODE of bytes raises no InvalidInput, since its trim stage is given bytes (R133, R215). -/
theorem reassembleAndTrim_bytes_errors (p : Params) (es : List Byte) :
    ErrorsAmong [.truncatedMidiMessage, .malformedNoteTriplet, .invalidProtocolMessageLength]
      (reassembleAndTrim p (asElements es)) :=
  ((reassemble_bytes_errors p es).mono (by simp)).bind fun r =>
    (validateAndTrim_bytes_errors r.out).mono (by simp)

/-- An operation that refuses a non-byte first can raise InvalidInput besides the errors it raises for bytes. -/
theorem errorsAmong_of_bytes {allowed : List ErrorCode} {op : List Word → Result}
    (hbytes : ∀ bs, ErrorsAmong allowed (op (asElements bs)))
    (hnonByte : ∀ xs k, FirstNonByte xs k → op xs = .error ⟨.invalidInput, BitVec.ofNat 16 k, []⟩) (xs : List Word) :
    ErrorsAmong (.invalidInput :: allowed) (op xs) := by
  rcases bytes_or_firstNonByte xs with ⟨bs, rfl⟩ | ⟨k, hk⟩
  · exact (hbytes bs).mono (List.subset_cons_self _ _)
  · rw [hnonByte xs k hk]; exact List.mem_cons_self

theorem reassembleAndTrim_nonByte (p : Params) {xs : List Word} {k : Nat} (h : FirstNonByte xs k) :
    reassembleAndTrim p xs = .error ⟨.invalidInput, BitVec.ofNat 16 k, []⟩ :=
  reassembleAndTrim_of_error (reassemble_nonByte p h)

/-- The three errors of the message check (42_field_codec.md R160). -/
theorem checkMsg_errors (xs : List Word) (len : Nat) (command : Byte) :
    ErrorsAmong [.invalidInput, .invalidProtocolMessageLength, .incorrectCommandByte] (checkMsg xs len command) :=
  (ErrorsAmong.bytesOf (by simp) xs).bind fun _ =>
    (ErrorsAmong.raiseIf (by simp) _ _).bind fun _ => (ErrorsAmong.raiseIf (by simp) _ _).bind fun _ => trivial

theorem decodeSerialNumber_errors (xs : List Word) :
    ErrorsAmong [.invalidInput, .invalidProtocolMessageLength, .incorrectCommandByte, .invalidSerialCharacter]
      (decodeSerialNumber xs) :=
  ((checkMsg_errors xs _ _).mono (by simp)).bind fun m =>
    (ErrorsAmong.checkAscii (by simp) m 2 _).bind fun _ => trivial

theorem decodeLedState_errors (xs : List Word) :
    ErrorsAmong [.invalidInput, .invalidProtocolMessageLength, .incorrectCommandByte, .invalidLedValue]
      (decodeLedState xs) :=
  ((checkMsg_errors xs _ _).mono (by simp)).bind fun _ => (ErrorsAmong.raiseIf (by simp) _ _).bind fun _ => trivial

theorem getMillivolts_errors (xs : List Word) :
    ErrorsAmong [.invalidInput, .invalidProtocolMessageLength, .incorrectCommandByte] (getMillivolts xs) :=
  (checkMsg_errors xs _ _).bind fun _ => trivial

theorem decodeMillivolts_errors (xs : List Word) : ErrorsAmong [.invalidInput] (decodeMillivolts xs) :=
  (ErrorsAmong.bytesOf (by simp) xs).bind fun _ => trivial

/-! ### The errors of each command -/

/-- The "raised by" columns of R200 and R201 read by command, without the code that R215 shows unreachable. -/
def errorsOf : Instr → List ErrorCode
  | .frame => [.malformedRequest, .invalidInput]
  | .frameU => [.malformedRequest, .rejectedUnorderedInput]
  | .b2t => [.invalidInput]
  | .send => [.malformedRequest, .emptyCommand, .invalidInput]
  | .reasm => [.malformedRequest, .invalidInput, .truncatedMidiMessage, .malformedNoteTriplet]
  | .trim => [.malformedRequest, .invalidInput, .invalidProtocolMessageLength]
  | .decode =>
    [.malformedRequest, .invalidInput, .truncatedMidiMessage, .malformedNoteTriplet, .invalidProtocolMessageLength]
  | .dser =>
    [.malformedRequest, .invalidInput, .invalidProtocolMessageLength, .incorrectCommandByte, .invalidSerialCharacter]
  | .dled => [.malformedRequest, .invalidInput, .invalidProtocolMessageLength, .incorrectCommandByte, .invalidLedValue]
  | .dmv => [.malformedRequest, .invalidInput, .invalidProtocolMessageLength, .incorrectCommandByte]
  | .emv => []
  | .dmvp => [.malformedRequest, .invalidInput]
  | .catSer => []
  | .catVolt => []
  | .catLed => []

/-- No command ends with an error outside its row. -/
theorem resultOf_errors (i : Instr) (p : Params) (q : Snapshot) : ErrorsAmong (errorsOf i) (resultOf i p q) := by
  cases i with
  | frame => exact .withInput (prepareFrame_ordered_errors _)
  | frameU => exact .withInput (by simp [prepareFrame_unordered])
  | b2t => exact byteToTriplet_errors p q.arg
  | send => exact .withInput (prepareForSending_errors p q.arg _)
  | reasm =>
    exact .withInput (errorsAmong_of_bytes (reassemble_bytes_errors p) (fun _ _ hk => reassemble_nonByte p hk) _)
  | trim =>
    exact .withInput (errorsAmong_of_bytes validateAndTrim_bytes_errors (fun _ _ hk => validateAndTrim_nonByte hk) _)
  | decode =>
    exact .withInput
      (errorsAmong_of_bytes (reassembleAndTrim_bytes_errors p) (fun _ _ hk => reassembleAndTrim_nonByte p hk) _)
  | dser => exact .withInput (decodeSerialNumber_errors _)
  | dled => exact .withInput (decodeLedState_errors _)
  | dmv => exact .withInput (getMillivolts_errors _)
  | emv => trivial
  | dmvp =>
    refine (ErrorsAmong.raiseIf (by simp [errorsOf]) _ _).bind fun _ => ?_
    exact (ErrorsAmong.raiseIf (by simp [errorsOf]) _ _).bind fun _ =>
      (decodeMillivolts_errors _).mono (by simp [errorsOf])
  | catSer => trivial
  | catVolt => trivial
  | catLed => trivial

/-- After a commit ERR_CODE is 0, or the code of an error in the command's row (R202). -/
theorem exec_errCode {i : Instr} {s t : State} (h : exec i s = .next t) :
    t.status.errCode = 0#4 ∨ ∃ c ∈ errorsOf i, t.status.errCode = c.code := by
  obtain ⟨q, -, rfl⟩ := exec_next h
  have herrors := resultOf_errors i s.params q
  cases hr : resultOf i s.params q with
  | ok r => exact .inl rfl
  | error f =>
    rw [hr] at herrors
    exact .inr ⟨f.code, herrors, rfl⟩

/-- Different errors have different codes (R200, R201). -/
theorem code_injective : Function.Injective ErrorCode.code :=
  Function.LeftInverse.injective (g := fun n => ErrorCode.ofNat (n.toNat - 1)) fun c => by cases c <;> rfl

/-- A command never reports the code of an error outside its row. -/
theorem exec_errCode_ne {i : Instr} {s t : State} (h : exec i s = .next t) {c : ErrorCode} (hc : c ∉ errorsOf i) :
    t.status.errCode ≠ c.code := by
  intro hcode
  rcases exec_errCode h with hzero | ⟨d, hd, herr⟩
  · have hlow := (code_bounds c).1
    rw [← hcode, hzero] at hlow
    exact absurd hlow (by decide)
  · exact hc (code_injective (hcode.symm.trans herr) ▸ hd)

/-- A command reports no code above 12 (R202). -/
theorem exec_errCode_le {i : Instr} {s t : State} (h : exec i s = .next t) : t.status.errCode.toNat ≤ 12 := by
  rcases exec_errCode h with hzero | ⟨c, -, herr⟩
  · rw [hzero]; exact Nat.zero_le 12
  · rw [herr]; exact (code_bounds c).2

/-! ### MalformedRequest -/

/-- R204's check comes before any check of the command's own. -/
theorem resultOf_tooLong {i : Instr} {p : Params} {q : Snapshot} (hreads : readsInput i = true)
    (h : p.capIn < q.inLen.toNat) : resultOf i p q = .error ⟨.malformedRequest, q.inLen, []⟩ := by
  cases i with
  | b2t | emv | catSer | catVolt | catLed => exact nomatch hreads
  | dmvp => rw [resultOf, withTwoInputs, withInput_tooLong h]
  | _ => exact withInput_tooLong h _

/-- A command that does not look at IN_LEN has no MalformedRequest in its row. -/
theorem malformedRequest_not_mem_errorsOf {i : Instr} (hreads : readsInput i = false) :
    .malformedRequest ∉ errorsOf i := by
  cases i with
  | b2t | emv | catSer | catVolt | catLed => simp [errorsOf]
  | _ => exact nomatch hreads

/-- Settles O19: the check of IN_LEN for the commands that make it, the row of errors for the others. -/
theorem malformedRequestComesFirst : Obligations.MalformedRequestComesFirst := by
  unfold Obligations.MalformedRequestComesFirst
  intro i s q hpending hlong
  refine ⟨fun hreads => ?reader, fun hreads t hexec => ?other⟩
  case reader => exact commitsErr_of_result hpending (resultOf_tooLong hreads hlong) (Nat.zero_lt_succ _)
  case other => exact exec_errCode_ne hexec (malformedRequest_not_mem_errorsOf hreads)

/-! ### The unreachable reports -/

theorem malformedTripletAlignment_not_mem_errorsOf (i : Instr) : .malformedTripletAlignment ∉ errorsOf i := by
  cases i <;> simp [errorsOf]

/-- An InvalidInput of DECODE's operation is about an element of the list it was given. -/
theorem reassembleAndTrim_invalidInput {p : Params} {xs : List Word} {f : Failure}
    (h : reassembleAndTrim p xs = .error f) (hcode : f.code = .invalidInput) :
    ∃ k, FirstNonByte xs k ∧ f.ctx = BitVec.ofNat 16 k := by
  rcases bytes_or_firstNonByte xs with ⟨es, rfl⟩ | ⟨k, hk⟩
  · have herrors := reassembleAndTrim_bytes_errors p es
    rw [h, errorsAmong_error, hcode] at herrors
    simp at herrors
  · obtain rfl : ⟨.invalidInput, BitVec.ofNat 16 k, []⟩ = f := by simpa [reassembleAndTrim_nonByte p hk] using h
    exact ⟨k, hk, rfl⟩

/-- R204's check passes the snapshot on, or answers MalformedRequest. -/
theorem withInput_cases (p : Params) (q : Snapshot) (op : List Word → Result) :
    withInput p q op = .error ⟨.malformedRequest, q.inLen, []⟩ ∨ withInput p q op = op q.input := by
  by_cases hlong : p.capIn < q.inLen.toNat
  · exact .inl (withInput_tooLong hlong op)
  · exact .inr (by rw [withInput, decide_eq_false hlong, raiseIf_false, ok_bind])

/-- DECODE reports InvalidInput for an element of IN alone, whatever IN_LEN is. -/
theorem resultOf_decode_invalidInput {p : Params} {q : Snapshot} {f : Failure} (h : resultOf .decode p q = .error f)
    (hcode : f.code = .invalidInput) : ∃ k, FirstNonByte q.input k ∧ f.ctx = BitVec.ofNat 16 k := by
  rcases withInput_cases p q (reassembleAndTrim p) with hlong | hfits
  · obtain rfl : _ = f := Except.error.inj (hlong.symm.trans h)
    exact nomatch hcode
  · exact reassembleAndTrim_invalidInput (hfits.symm.trans h) hcode

/-- Settles O25: code 3 is in no command's row, no code is above 12, and DECODE's trim stage is given bytes. -/
theorem unreachableErrorCodes : Obligations.UnreachableErrorCodes := by
  unfold Obligations.UnreachableErrorCodes
  refine ⟨fun i s t hexec => ?codes, fun s t q hpending hexec hcode => ?decodeInvalidInput⟩
  case codes =>
    have hbound := exec_errCode_le hexec
    refine ⟨exec_errCode_ne hexec (malformedTripletAlignment_not_mem_errorsOf i), ?_, ?_, ?_⟩ <;>
      (intro hreserved; simp [hreserved] at hbound)
  case decodeInvalidInput =>
    obtain rfl : commit s (resultOf .decode s.params q) = t := by simpa [exec_pending hpending] using hexec
    cases hr : resultOf .decode s.params q with
    | ok r =>
      rw [hr] at hcode
      exact nomatch hcode
    | error f =>
      rw [hr] at hcode
      exact resultOf_decode_invalidInput hr (code_injective hcode)

/-! ### No step stops the machine -/

/-- The codec has a commit for every pending word, a legal or an illegal one, and is idle without (R84, R33, R214). -/
theorem codecStep_next (s : State) : ∃ t, codecStep s = .next t := by
  cases hp : s.pending with
  | none => exact ⟨s, codecStep_none hp⟩
  | some q =>
    cases hd : decodeWord q.cmd with
    | ok i => exact ⟨_, (codecStep_ok hp hd).trans (exec_pending hp)⟩
    | error e => exact ⟨_, codecStep_error hp hd⟩

/-- Settles O41: whoever moves has a next state, and with no one to move the state stays. -/
theorem everyStepAnswersANextState : Obligations.EveryStepAnswersANextState := by
  unfold Obligations.EveryStepAnswersANextState
  intro s hparams
  rw [step_valid hparams]
  cases hagent : nextAgent s with
  | none => exact ⟨s, agentStep_none hagent⟩
  | some agent =>
    cases agent with
    | host => exact ⟨_, agentStep_host hagent⟩
    | codec =>
      rw [agentStep_codec hagent]
      exact codecStep_next (takeTurn s)

/-! ### The error report in STATUS -/

/-- A write that is not accepted leaves the report: a drop sets DROP alone (R32), and another address leaves STATUS (R54). -/
theorem memWrite_keeps_report {s : State} {a : Word} (h : ¬ (a = 0x0000#16 ∧ s.status.busy = false)) (v : Word) :
    (memWrite s a v).status.err = s.status.err ∧ (memWrite s a v).status.errCode = s.status.errCode := by
  by_cases ha : a = 0x0000#16
  · subst ha
    have hbusy : s.status.busy = true := by simpa using h
    rw [memWrite_cmd_busy hbusy]
    exact ⟨rfl, rfl⟩
  · obtain ⟨-, hstatus⟩ := memWrite_starts_nothing s ha v
    rw [hstatus]
    exact ⟨rfl, rfl⟩

/-- Settles O30: the accept, every other write, and a read. -/
theorem onlyAnAcceptClearsTheErrorReport : Obligations.OnlyAnAcceptClearsTheErrorReport := by
  unfold Obligations.OnlyAnAcceptClearsTheErrorReport
  intro s a v
  refine ⟨fun ha hidle => ?accepted, fun hother => memWrite_keeps_report hother v, hostRead_status s a⟩
  case accepted =>
    rw [ha, memWrite_cmd_idle hidle]
    exact ⟨rfl, rfl⟩

end Sys2Proof.Machine

/-! PROOF. Reset: what the event clears (70_reset_and_hazards.md R230, R231), the invariant from there on, and the first command
after it, with no operand written (R232, R233). -/

namespace Sys2Proof.Machine

/-! ### The reset event -/

/-- The reset event is a host step of its own: it clears the codec and is used up (R230, log entry 11). -/
theorem hostStep_reset {s : State} {ts : List HostTask} (hscript : s.script = .reset :: ts) :
    hostStep s = setScript (resetCodec s) ts := hostStep_cons hscript

theorem statusWord_zero : statusWord Status.zero = 0#16 := by decide

/-- Every register and entry of a cleared codec is 0, whatever the host still has to do. -/
theorem regValue_resetCodec (s : State) (ts : List HostTask) (r : RegName) :
    regValue (setScript (resetCodec s) ts) r = 0#16 := by
  cases r with
  | status => exact statusWord_zero
  | _ => rfl

/-- Settles O35: no address shows anything but a register's value or 0, and every register is cleared. -/
theorem resetEventClearsEveryRegister : Obligations.ResetEventClearsEveryRegister := by
  unfold Obligations.ResetEventClearsEveryRegister
  intro s ts hscript
  rw [hostStep_reset hscript]
  refine ⟨fun a => ?reads, rfl, rfl, rfl, rfl, rfl, rfl⟩
  case reads =>
    rw [memRead_eq_regValue]
    cases regAt (setScript (resetCodec s) ts).params a with
    | none => rfl
    | some r => exact regValue_resetCodec s ts r

/-- Settles O37: the base case of the invariant, and the vectors' parameters are a legal set. -/
theorem resetSatisfiesTheInvariant : Obligations.ResetSatisfiesTheInvariant := by
  unfold Obligations.ResetSatisfiesTheInvariant
  have hvectors : paramsValid vectorParams = true := by decide
  exact ⟨fun _ => powerOn_inv, powerOn_inv hvectors⟩

/-! ### The first command after reset -/

/-- The codec of a power-on with the command word of `i` just accepted, no operand written. -/
def firstCommand (p : Params) (i : Instr) : State := accept (State.powerOn p) (encode i)

/-- Its operands: ARG and IN_LEN are 0, and no entry of IN is taken (R233). -/
theorem firstCommand_pending (p : Params) (i : Instr) :
    (firstCommand p i).pending = some ⟨encode i, 0#16, 0#16, []⟩ := by
  simp [firstCommand, takeSnapshot]

theorem firstCommand_ready {p : Params} (h : paramsValid p = true) (i : Instr) :
    Ready (firstCommand p i) ⟨encode i, 0#16, 0#16, []⟩ where
  params := h
  pending := firstCommand_pending p i
  fits := Nat.zero_le _
  length := rfl

/-- With no turns left to the host the very next step runs the accepted command (log entry 3). -/
theorem step_firstCommand {p : Params} (h : paramsValid p = true) (i : Instr) :
    step (firstCommand p i) = exec i (firstCommand p i) :=
  stepRunsTheDecodedInstruction _ _ i h rfl (firstCommand_pending p i) (decodeWord_encode i)

theorem firstCommand_succeeds {p : Params} (h : paramsValid p = true) {i : Instr} {out : List Byte} {res : Word}
    (hcommits : CommitsOk i (firstCommand p i) out res) :
    ∃ t, step (firstCommand p i) = .next t ∧ Succeeds (firstCommand p i) t out res := by
  rwa [step_firstCommand h]

theorem firstCommand_fails {p : Params} (h : paramsValid p = true) {i : Instr} {code : BitVec 4} {ctx : Word}
    {msg : List Byte} (hcommits : CommitsErr i (firstCommand p i) code ctx msg) :
    ∃ t, step (firstCommand p i) = .next t ∧ Fails (firstCommand p i) t code ctx msg := by
  rwa [step_firstCommand h]

/-- Settles O36: each of the five is its operation of the zero operands: the empty payload, no frames, the empty message, the
byte 0, and a catalog entry. -/
theorem firstCommandAfterReset : Obligations.FirstCommandAfterReset := by
  unfold Obligations.FirstCommandAfterReset
  intro p hp
  have hready := firstCommand_ready hp
  refine ⟨firstCommand_succeeds hp (i := .frame) ?frame, firstCommand_fails hp (i := .send) ?send,
    firstCommand_fails hp (i := .trim) ?trim, firstCommand_succeeds hp (i := .b2t) ?b2t,
    firstCommand_succeeds hp (i := .catVolt) ?catVolt⟩
  case frame =>
    have hempty : prepareFrame false [] = succeed [1#8] 0#16 := prepareFrame_bytes (bs := []) (Nat.zero_le _)
    exact (hready .frame).commitsOk ((resultOf_frame_ready (hready .frame)).trans hempty)
  case send =>
    exact (hready .send).commitsErr ((resultOf_send_ready (hready .send)).trans (prepareForSending_noFrames p []))
  case trim =>
    exact (hready .trim).commitsErr ((resultOf_trim_ready (hready .trim)).trans validateAndTrim_nil)
  case b2t => exact (hready .b2t).commitsOk (byteToTriplet_byte p 0#8)
  case catVolt => exact commitsOk_catalog cmdGetVoltage (firstCommand_pending p .catVolt) rfl

end Sys2Proof.Machine

/-! PROOF. A pending command: what the host's accesses leave of it (70_reset_and_hazards.md R235), and that it commits its own
result, or a reset discards it, before the turns are used up (R238, R231). -/

namespace Sys2Proof.Machine

/-! ### The host's accesses while a command is pending -/

/-- While BUSY = 1 a write to CMD is dropped, and no other write reaches PENDING (10_state.md R31, R32). -/
theorem memWrite_pending_of_busy {s : State} (hbusy : s.status.busy = true) (a v : Word) :
    (memWrite s a v).pending = s.pending := by
  by_cases ha : a = 0x0000#16
  · rw [ha, memWrite_cmd_busy hbusy, dropWrite_pending]
  · obtain ⟨hpending, -⟩ := memWrite_starts_nothing s ha v
    exact hpending

/-- Settles O28: the write leaves the snapshot and the parameters, and a result is computed from these alone. -/
theorem pendingCommandIgnoresLaterWrites : Obligations.PendingCommandIgnoresLaterWrites := by
  unfold Obligations.PendingCommandIgnoresLaterWrites
  intro s q a v hbusy hpending
  have hkept : (memWrite s a v).pending = some q := (memWrite_pending_of_busy hbusy a v).trans hpending
  refine ⟨hkept, fun i => ⟨_, _, exec_pending hpending, exec_pending hkept, ?_⟩⟩
  rw [memWrite_params]
  exact commit_sameResult s (memWrite s a v) _

theorem memWrite_turns (s : State) (a v : Word) : (memWrite s a v).turns = s.turns := by
  rcases memWrite_cases s a v with ⟨-, -, h⟩ | ⟨-, -, h⟩ | ⟨-, h⟩ | ⟨-, h⟩ | ⟨i, -, -, h⟩ | h <;> rw [h] <;> rfl

/-- No access and no reset changes the parameters or the turns (log entry 11). -/
theorem doAccess_params_turns (s : State) (a : Option Access) :
    (doAccess s a).params = s.params ∧ (doAccess s a).turns = s.turns := by
  cases a with
  | none => exact ⟨rfl, rfl⟩
  | some a =>
    cases a with
    | read a => exact ⟨rfl, rfl⟩
    | write a v => exact ⟨memWrite_params s a v, memWrite_turns s a v⟩

theorem hostStep_params_turns (s : State) : (hostStep s).params = s.params ∧ (hostStep s).turns = s.turns := by
  cases hscript : s.script with
  | nil => rw [hostStep_nil hscript]; exact ⟨rfl, rfl⟩
  | cons t ts => rw [hostStep_cons hscript]; exact doAccess_params_turns s _

/-! ### The end of a pending command -/

/-- The next step ends a pending command: it is the codec's, or the reset event. -/
def EndsNext (u : State) : Prop :=
  nextAgent u = some .codec ∨ (nextAgent u = some .host ∧ ∃ ts, u.script = .reset :: ts)

/-- The pending command of `s` is still pending at some state that is no more steps away than there are turns left, and the
next step from there ends it (R238). -/
def EndsWithinTurns (s : State) : Prop :=
  ∃ k u, k ≤ s.turns.length ∧ stepMany k s = .next u ∧ u.params = s.params ∧ u.pending = s.pending ∧ EndsNext u

theorem EndsNext.endsWithinTurns {s : State} (h : EndsNext s) : EndsWithinTurns s :=
  ⟨0, s, Nat.zero_le _, rfl, rfl, rfl, h⟩

/-- A step that uses a turn up and keeps the command pending puts its end off by one step. -/
theorem EndsWithinTurns.of_step {s s' : State} {agent : Agent} (h : EndsWithinTurns s') (hstep : step s = .next s')
    (hparams : s'.params = s.params) (hpending : s'.pending = s.pending) (hturns : s.turns = agent :: s'.turns) :
    EndsWithinTurns s := by
  obtain ⟨k, u, hk, hrun, hup, huq, hends⟩ := h
  refine ⟨k + 1, u, ?_, (stepMany_succ hstep k).trans hrun, hup.trans hparams, huq.trans hpending, hends⟩
  rw [hturns, List.length_cons]
  exact Nat.succ_le_succ hk

/-- Every turn of the host keeps the command pending or is the reset event, and once the turns are used up the codec moves. -/
theorem endsWithinTurns_of_pending {s : State} (hparams : paramsValid s.params = true) (hbusy : s.status.busy = true)
    (hpending : s.pending.isSome = true) : EndsWithinTurns s := by
  induction hturns : s.turns generalizing s with
  | nil => exact EndsNext.endsWithinTurns (.inl (by simp [nextAgent, hturns, hpending]))
  | cons agent turns ih =>
    have hturn : nextAgent s = some agent := by simp [nextAgent, hturns]
    cases agent with
    | codec => exact EndsNext.endsWithinTurns (.inl hturn)
    | host =>
      rcases hostStep_pending (s := takeTurn s) hbusy with ⟨hbusy', hpending'⟩ | ⟨hreset, -, -⟩
      · obtain ⟨hparams', hturns'⟩ := hostStep_params_turns (takeTurn s)
        rw [takeTurn_turns, hturns, List.tail_cons] at hturns'
        have hends := ih (hparams' ▸ hparams) hbusy' (hpending' ▸ hpending) hturns'
        exact hends.of_step ((step_valid hparams).trans (agentStep_host hturn)) hparams' hpending' (hturns'.symm ▸ hturns)
      · exact EndsNext.endsWithinTurns (.inr ⟨hturn, hreset⟩)

/-- The codec's turn commits what the pending word asks for: the result of its instruction, or R84's of an illegal word. -/
theorem step_commits_pending {u : State} {q : Snapshot} (hparams : paramsValid u.params = true)
    (hpending : u.pending = some q) (hturn : nextAgent u = some .codec) :
    ∃ r, step u = .next (commit (takeTurn u) r) ∧ (∀ i, decodeWord q.cmd = .ok i → r = resultOf i u.params q) ∧
      ((∀ i, decodeWord q.cmd ≠ .ok i) → r = .error ⟨.illegalOperation, q.cmd, []⟩) := by
  by_cases hlegal : ∃ i, decodeWord q.cmd = .ok i
  · obtain ⟨i, hi⟩ := hlegal
    have hstep := stepRunsTheDecodedInstruction u q i hparams hturn hpending hi
    refine ⟨_, hstep.trans (exec_pending hpending), fun j hj => ?_, fun hillegal => absurd hi (hillegal i)⟩
    rw [Except.ok.inj (hi.symm.trans hj)]
  · have hillegal := not_exists.mp hlegal
    exact ⟨.error _, step_illegal hparams hpending hillegal hturn, fun i hi => absurd hi (hillegal i), fun _ => rfl⟩

/-- Settles O42: the command is pending until a step that ends it, which commits its own result or is the reset event. -/
theorem pendingCommandEventuallyCommits : Obligations.PendingCommandEventuallyCommits := by
  unfold Obligations.PendingCommandEventuallyCommits
  intro s q hparams hbusy hpending
  obtain ⟨k, u, hk, hrun, hup, huq, hends⟩ := endsWithinTurns_of_pending hparams hbusy (by simp [hpending])
  have hparams' : paramsValid u.params = true := hup ▸ hparams
  have hpending' : u.pending = some q := huq.trans hpending
  rcases hends with hturn | ⟨hturn, ts, hscript⟩
  · obtain ⟨r, hstep, hlegal, hillegal⟩ := step_commits_pending hparams' hpending' hturn
    obtain ⟨hnone, hidle, hdone, -⟩ := commit_ends (takeTurn u) r
    refine ⟨k, u, _, hk, hrun, hpending', hstep, hnone, .inl ⟨hidle, hdone, fun i hi => ?legal, fun hi => ?illegal⟩⟩
    case legal =>
      rw [hlegal i hi, hup]
      exact ⟨_, exec_pending hpending, commit_sameResult _ _ _⟩
    case illegal =>
      rw [hillegal hi]
      exact ⟨rfl, rfl, rfl, rfl, rfl⟩
  · have hreset := hostStep_reset (s := takeTurn u) hscript
    have hstep := (step_valid hparams').trans (agentStep_host hturn)
    rw [hreset] at hstep
    exact ⟨k, u, _, hk, hrun, hpending', hstep, rfl, .inr ⟨⟨ts, hscript⟩, rfl⟩⟩

end Sys2Proof.Machine
